-- ==== Sys2Proof/Word.lean ====
section
/-! DEFINITION. The two word types of CORE (00_scope.md R8, R9). -/

namespace Sys2Proof

/-- A memory byte (20_memory.md R42). -/
abbrev Byte := BitVec 8

/-- A u32: a register, an address, an instruction word (00_scope.md R8, R9). -/
abbrev Word := BitVec 32

end Sys2Proof
end

