-- ==== Sys2Proof/Config.lean ====
section
/-! DEFINITION. The implementation parameters of 00_scope.md R8. N (MEM_SIZE) is the image's length and so stands in
State. No result of an executed instruction is left open by the spec, so there is no free value here. -/

namespace Sys2Proof

/-- The smallest image: the register file itself (00_scope.md R8; the spec's decision D3). -/
def Config.minMemSize : Nat := 32

/-- The largest image, and the number of 32-bit addresses (00_scope.md R8; the spec's decisions D2, D3). -/
def Config.addressSpace : Nat := 2 ^ 32

/-- DEREF_ENABLED: the dereference handler is not wired, so 0x19 is an invalid opcode (00_scope.md R8; the spec's
decision D8). -/
def Config.derefEnabled : Bool := false

/-- BACKING_PERSISTENT: whether memory writes outlive the run in the image file. The spec leaves it open (D32), and no
rule of CORE reads it (log entry 13). -/
opaque Config.backingPersistent : Bool

/-- What a byte of memory that nothing has listed reads as: DESIGN CHOICE, log entry 2 (unsafe). -/
def Config.unlistedByte : Byte := 0

end Sys2Proof
end

