-- ==== Sys2Proof/Syntax.lean ====
section
/-! DEFINITION. The syntax of VMachine-24: the eight registers and the 24 instructions, one constructor per row of
spec/opcode_table.json. Operands stand in encoding byte order (30_encoding.md R69, R84). -/

namespace Sys2Proof

/-- The eight registers (10_state.md R20). Any register operand may name any of them (R23). `endr` is END. -/
inductive Reg where
  | ip | r0 | r1 | r2 | r3 | cmp | endr | sp
  deriving DecidableEq, Repr

/-- The instructions of the opcode map (30_encoding.md R84). An `off16` is the raw 16-bit field; its sign extension
(R77) belongs to the meaning. Unused bytes (R81) are not part of an instruction. -/
inductive Instr where
  /-- 0x01 ADD r1, r2, r3: sources r1 and r2, destination r3 (R73). -/
  | add (src1 src2 dst : Reg)
  /-- 0x02 SUB r1, r2, r3. -/
  | sub (src1 src2 dst : Reg)
  /-- 0x03 MUL r1, r2, r3. -/
  | mul (src1 src2 dst : Reg)
  /-- 0x04 DIV r1, r2, r3. -/
  | div (src1 src2 dst : Reg)
  /-- 0x05 JMP offset. -/
  | jmp (off16 : BitVec 16)
  /-- 0x06 LD reg, offset. -/
  | ld (reg : Reg) (off16 : BitVec 16)
  /-- 0x07 FIN. -/
  | fin
  /-- 0x08 OUT reg. -/
  | out (reg : Reg)
  /-- 0x09 EQ left, right. -/
  | eq (left right : Reg)
  /-- 0x0A LT left, right. -/
  | lt (left right : Reg)
  /-- 0x0B LE left, right. -/
  | le (left right : Reg)
  /-- 0x0C LDABS reg, value. -/
  | ldabs (reg : Reg) (imm16 : BitVec 16)
  /-- 0x0D IN reg. -/
  | inp (reg : Reg)
  /-- 0x0E JEQ offset. -/
  | jeq (off16 : BitVec 16)
  /-- 0x0F JNE offset. -/
  | jne (off16 : BitVec 16)
  /-- 0x10 OUTR reg. -/
  | outr (reg : Reg)
  /-- 0x11 SKIP. -/
  | skip
  /-- 0x12 OUTNUM reg. -/
  | outnum (reg : Reg)
  /-- 0x13 MOV src, dst. -/
  | mov (src dst : Reg)
  /-- 0x14 INNUM reg. -/
  | innum (reg : Reg)
  /-- 0x15 PUSH reg. -/
  | push (reg : Reg)
  /-- 0x16 POP reg. -/
  | pop (reg : Reg)
  /-- 0x17 CALL offset. -/
  | call (off16 : BitVec 16)
  /-- 0x18 RET. -/
  | ret
  deriving DecidableEq, Repr

end Sys2Proof
end

