-- ==== Sys2Proof/WellFormed.lean ====
section
/-! DEFINITION. Well-formedness, read from the format tables of 30_encoding.md and not from the decoder.

The types of `Instr` leave no ill-formed instruction: a register operand is one of the eight names and an offset or
immediate has its 16 bits. What can be ill-formed is a WORD: an opcode byte outside the map (R85), or a byte in a
register field that names no register (R80). `wordWellFormed` is these two checks. -/

namespace Sys2Proof

/-- The seven operand formats (30_encoding.md R69). -/
inductive Format where
  | N | R | RR | RRR | O | RO | RI
  deriving DecidableEq, Repr

/-- The format an opcode byte selects (30_encoding.md R82, R84); none for an invalid opcode (R85). -/
def formatOf (op : Nat) : Option Format :=
  if op ∈ [0x07, 0x11, 0x18] then some .N
  else if op ∈ [0x08, 0x0D, 0x10, 0x12, 0x14, 0x15, 0x16] then some .R
  else if op ∈ [0x09, 0x0A, 0x0B, 0x13] then some .RR
  else if op ∈ [0x01, 0x02, 0x03, 0x04] then some .RRR
  else if op ∈ [0x05, 0x0E, 0x0F, 0x17] then some .O
  else if op = 0x06 then some .RO
  else if op = 0x0C then some .RI
  else none

/-- The byte positions of a format's register fields (30_encoding.md R69 to R76). -/
def Format.registerPositions : Format → List Nat
  | .N => []
  | .R => [1]
  | .RR => [1, 2]
  | .RRR => [1, 2, 3]
  | .O => []
  | .RO => [1]
  | .RI => [1]

/-- The byte positions a format reads at all; the others are unused (30_encoding.md R69, R81). -/
def Format.usedPositions : Format → List Nat
  | .N => [0]
  | .R => [0, 1]
  | .RR => [0, 1, 2]
  | .RRR => [0, 1, 2, 3]
  | .O => [0, 1, 2]
  | .RO => [0, 1, 2, 3]
  | .RI => [0, 1, 2, 3]

/-- The eight legal values of a register-operand byte (30_encoding.md R79, R80). -/
def registerByte (b : Byte) : Bool :=
  b.toNat ∈ [0x00, 0x04, 0x08, 0x0C, 0x10, 0x14, 0x18, 0x1C]

/-- Byte `k` of an instruction word (00_scope.md R10). -/
def wordByte (w : Word) (k : Nat) : Byte :=
  w.extractLsb' (8 * k) 8

/-- A word is well-formed when its opcode is in the map and every register field names a register
(30_encoding.md R80, R85, R89). -/
def wordWellFormed (w : Word) : Bool :=
  match formatOf (wordByte w 0).toNat with
  | none => false
  | some fmt => fmt.registerPositions.all fun k => registerByte (wordByte w k)

/-- The format of each instruction (30_encoding.md R84). -/
def Instr.format : Instr → Format
  | .add _ _ _ | .sub _ _ _ | .mul _ _ _ | .div _ _ _ => .RRR
  | .jmp _ | .jeq _ | .jne _ | .call _ => .O
  | .ld _ _ => .RO
  | .ldabs _ _ => .RI
  | .fin | .skip | .ret => .N
  | .out _ | .inp _ | .outr _ | .outnum _ | .innum _ | .push _ | .pop _ => .R
  | .eq _ _ | .lt _ _ | .le _ _ | .mov _ _ => .RR

end Sys2Proof
end

