-- ==== Sys2Proof/Decode.lean ====
section
/-! DEFINITION. The decoder of 30_encoding.md R89, total on every 32-bit word and rejecting by name, and after it the
encoder written from the same tables (R69 to R79, R84). -/

namespace Sys2Proof

/-- What decode rejects a word for. The controller turns it into the fault of 60_exceptions.md R155, adding cur_ip. -/
inductive DecodeError where
  /-- Byte 0 is no opcode (30_encoding.md R85). -/
  | invalidOpcode (opcode : Byte)
  /-- A register field's byte names no register (R80): the byte, its position (1, 2 or 3) and the opcode. -/
  | invalidRegister (value : Byte) (position : Nat) (opcode : Byte)
  deriving DecidableEq, Repr

/-- Byte `k` of the instruction word (00_scope.md R10). -/
def byteAt (w : Word) (k : Nat) : Byte :=
  w.extractLsb' (8 * k) 8

/-- The 16-bit little-endian field in bytes k and k+1 (30_encoding.md R74 to R76). -/
def halfAt (w : Word) (k : Nat) : BitVec 16 :=
  w.extractLsb' (8 * k) 16

/-- The register a register-operand byte names (30_encoding.md R79); none for the other 248 values (R80). -/
def Reg.ofByte (b : Byte) : Option Reg :=
  match b.toNat with
  | 0x00 => some .ip
  | 0x04 => some .r0
  | 0x08 => some .r1
  | 0x0C => some .r2
  | 0x10 => some .r3
  | 0x14 => some .cmp
  | 0x18 => some .endr
  | 0x1C => some .sp
  | _ => none

/-- One register field: byte `k` of `w` (30_encoding.md R80, R89). -/
def decodeReg (w : Word) (k : Nat) : Except DecodeError Reg :=
  match Reg.ofByte (byteAt w k) with
  | some r => .ok r
  | none => .error (.invalidRegister (byteAt w k) k (byteAt w 0))

/-- Format R (30_encoding.md R71). -/
def decodeR (mk : Reg → Instr) (w : Word) : Except DecodeError Instr :=
  match decodeReg w 1 with
  | .error e => .error e
  | .ok a => .ok (mk a)

/-- Format RR: byte 1 is checked before byte 2 (30_encoding.md R72, R89). -/
def decodeRR (mk : Reg → Reg → Instr) (w : Word) : Except DecodeError Instr :=
  match decodeReg w 1 with
  | .error e => .error e
  | .ok a =>
    match decodeReg w 2 with
    | .error e => .error e
    | .ok b => .ok (mk a b)

/-- Format RRR: bytes 1, 2 and 3 are checked in this order (30_encoding.md R73, R89). -/
def decodeRRR (mk : Reg → Reg → Reg → Instr) (w : Word) : Except DecodeError Instr :=
  match decodeReg w 1 with
  | .error e => .error e
  | .ok a =>
    match decodeReg w 2 with
    | .error e => .error e
    | .ok b =>
      match decodeReg w 3 with
      | .error e => .error e
      | .ok c => .ok (mk a b c)

/-- Format O: off16 in bytes 1 and 2 (30_encoding.md R74). -/
def decodeO (mk : BitVec 16 → Instr) (w : Word) : Except DecodeError Instr :=
  .ok (mk (halfAt w 1))

/-- Formats RO and RI: a register in byte 1, a 16-bit field in bytes 2 and 3 (30_encoding.md R75, R76). -/
def decodeRH (mk : Reg → BitVec 16 → Instr) (w : Word) : Except DecodeError Instr :=
  match decodeReg w 1 with
  | .error e => .error e
  | .ok a => .ok (mk a (halfAt w 2))

/-- The decode function (30_encoding.md R89): the opcode first, then the register fields from byte 1 upward. Unused
bytes are not looked at (R81). -/
def decode (w : Word) : Except DecodeError Instr :=
  match (byteAt w 0).toNat with
  | 0x01 => decodeRRR .add w
  | 0x02 => decodeRRR .sub w
  | 0x03 => decodeRRR .mul w
  | 0x04 => decodeRRR .div w
  | 0x05 => decodeO .jmp w
  | 0x06 => decodeRH .ld w
  | 0x07 => .ok .fin
  | 0x08 => decodeR .out w
  | 0x09 => decodeRR .eq w
  | 0x0A => decodeRR .lt w
  | 0x0B => decodeRR .le w
  | 0x0C => decodeRH .ldabs w
  | 0x0D => decodeR .inp w
  | 0x0E => decodeO .jeq w
  | 0x0F => decodeO .jne w
  | 0x10 => decodeR .outr w
  | 0x11 => .ok .skip
  | 0x12 => decodeR .outnum w
  | 0x13 => decodeRR .mov w
  | 0x14 => decodeR .innum w
  | 0x15 => decodeR .push w
  | 0x16 => decodeR .pop w
  | 0x17 => decodeO .call w
  | 0x18 => .ok .ret
  | _ => .error (.invalidOpcode (byteAt w 0))

/-- The word at the front of a byte string, byte 0 least significant (30_encoding.md R67), and the bytes after it. -/
def wordOfBytes (b0 b1 b2 b3 : Byte) : Word :=
  b3 ++ b2 ++ b1 ++ b0

/-- Decode on bytes in address order: the instruction and the bytes after its four; none when fewer than four bytes
stand there (an instruction is exactly 4 bytes, 30_encoding.md R67). -/
def decodeBytes : List Byte → Option (Except DecodeError Instr × List Byte)
  | b0 :: b1 :: b2 :: b3 :: rest => some (decode (wordOfBytes b0 b1 b2 b3), rest)
  | _ => none

/-- The register-operand byte of each register (30_encoding.md R79). -/
def Reg.code : Reg → Byte
  | .ip => 0x00
  | .r0 => 0x04
  | .r1 => 0x08
  | .r2 => 0x0C
  | .r3 => 0x10
  | .cmp => 0x14
  | .endr => 0x18
  | .sp => 0x1C

/-- The opcode byte of each instruction (30_encoding.md R84). -/
def Instr.opcode : Instr → Byte
  | .add _ _ _ => 0x01
  | .sub _ _ _ => 0x02
  | .mul _ _ _ => 0x03
  | .div _ _ _ => 0x04
  | .jmp _ => 0x05
  | .ld _ _ => 0x06
  | .fin => 0x07
  | .out _ => 0x08
  | .eq _ _ => 0x09
  | .lt _ _ => 0x0A
  | .le _ _ => 0x0B
  | .ldabs _ _ => 0x0C
  | .inp _ => 0x0D
  | .jeq _ => 0x0E
  | .jne _ => 0x0F
  | .outr _ => 0x10
  | .skip => 0x11
  | .outnum _ => 0x12
  | .mov _ _ => 0x13
  | .innum _ => 0x14
  | .push _ => 0x15
  | .pop _ => 0x16
  | .call _ => 0x17
  | .ret => 0x18

/-- Bytes 3, 2 and 1 of an instruction's word as one 24-bit field; unused bytes are assembled as 0 (30_encoding.md
R70 to R76, R92). -/
def Instr.operandField : Instr → BitVec 24
  | .add a b c | .sub a b c | .mul a b c | .div a b c => c.code ++ b.code ++ a.code
  | .jmp o | .jeq o | .jne o | .call o => (0 : Byte) ++ o
  | .ld r h | .ldabs r h => h ++ r.code
  | .fin | .skip | .ret => 0
  | .out r | .inp r | .outr r | .outnum r | .innum r | .push r | .pop r => (0 : BitVec 16) ++ r.code
  | .eq a b | .lt a b | .le a b | .mov a b => (0 : Byte) ++ b.code ++ a.code

/-- The instruction's word (30_encoding.md R67, R69). -/
def encode (i : Instr) : Word :=
  i.operandField ++ i.opcode

/-- The instruction this decoder reads from the first `nbits` bits `w` of the opcode table's numbering (bit 0 is the
least significant bit of byte 0), every bit above them 0; none where it refuses or where the row is longer than an
instruction. -/
def decodeTableWord (nbits w : Nat) : Option Instr :=
  if nbits ≤ 32 then
    match decode (BitVec.ofNat 32 (w % 2 ^ nbits)) with
    | .ok i => some i
    | .error _ => none
  else none

end Sys2Proof
end

