-- ==== Sys2Proof/Machine/State.lean ====
section
/-! DEFINITION. The state of CORE as plain data: the byte array that is memory and register file at once (10_state.md
R20, R21; 20_memory.md R42), the controller's latches (10_state.md R33 to R37), and the Display's buffers as CORE
observes them (44_io.md). -/

namespace Sys2Proof.Machine

/-- Memory as a list of (address, byte) pairs; an address it does not list reads as `Config.unlistedByte`. -/
abbrev Memory := List Host.Cell

/-- The canonical form: addresses strictly rising, and no entry equal to what an unlisted address reads as. -/
abbrev Memory.wf (m : Memory) : Prop :=
  m.Pairwise (fun x y => x.1 < y.1) ∧ ∀ c ∈ m, c.2 ≠ Config.unlistedByte

/-- The faults of 60_exceptions.md R155 with their payloads; the last argument of each is cur_ip. They stand in
`Ctl.faulted` after the fault is taken, and they are what a step of a Faulted machine answers. -/
inductive Fault where
  /-- Code 1, raised by Decode (30_encoding.md R85). Safe: the spec's own fault. -/
  | invalidOpcode (opcode : Byte) (curIp : Word)
  /-- Code 2, raised by Fetch, PUSH, POP, CALL, RET (20_memory.md R48, R50). Safe: the spec's own fault. -/
  | misalignedWordAccess (addr : Word) (width : Nat) (curIp : Word)
  /-- Code 3, raised by Fetch, LD, OUT, PUSH, POP, CALL, RET (20_memory.md R47, R48, R50). Safe: the spec's own
  fault. -/
  | outOfBounds (addr : Word) (width : Nat) (curIp : Word)
  /-- Code 4, raised by DIV (41_arithmetic.md R115). Safe: the spec's own fault. -/
  | divisionByZero (curIp : Word)
  /-- Code 5, raised by INNUM (44_io.md R142). Safe: the spec's own fault. -/
  | malformedNumericInput (curIp : Word)
  /-- Code 6, raised by IN and INNUM (44_io.md R137). Safe: the spec's own fault. -/
  | inputExhausted (curIp : Word)
  /-- Code 7, raised by Decode (30_encoding.md R80; the spec's decision D5). Safe: the spec's own fault. -/
  | invalidRegister (value : Byte) (position : Nat) (opcode : Byte) (curIp : Word)
  /-- Code 8, raised by OUTR (44_io.md R140; the spec's decision D17). Safe: the spec's own fault. -/
  | invalidCharacter (value : Word) (curIp : Word)
  deriving DecidableEq, Repr

/-- Why the model gives an instruction no meaning. -/
inductive Refusal where
  /-- Answered only by an arm of `exec` for an instruction that has no meaning yet. Safe: nothing is claimed of it. -/
  | notModelled (mnemonic : String)
  deriving DecidableEq, Repr

/-- The sub-states of Running (10_state.md R33; 40_cycle.md R94). -/
inductive Phase where
  | check | fetch | decode | execute | advance | exit
  deriving DecidableEq, Repr

/-- The control state `ctl` (10_state.md R33; 40_cycle.md R94). -/
inductive Ctl where
  | ready
  | running (p : Phase)
  | waitInput
  | faulted (f : Fault)
  deriving DecidableEq, Repr

/-- The state of the machine. The eight registers are NOT fields: each is a word of `mem` (10_state.md R21). -/
structure State where
  /-- The byte array; bytes 0 to 31 are the register file (10_state.md R20, 20_memory.md R42, R43). -/
  mem : Memory
  /-- N, the image's length, fixed for the machine's life (00_scope.md R8, 20_memory.md R42). -/
  memSize : Nat
  /-- ctl (10_state.md R33). -/
  ctl : Ctl
  /-- initial_ip, latched at construction (10_state.md R34). -/
  initialIp : Word
  /-- cur_ip, the address of the instruction being executed (10_state.md R35). -/
  curIp : Word
  /-- w, the word Fetch hands to Decode (40_cycle.md R98, R100). -/
  fetched : Word
  /-- inst, the decoded-instruction latch (10_state.md R36). -/
  inst : Instr
  /-- adv, whether Advance adds 4 to IP (10_state.md R37). -/
  adv : Bool
  /-- inbuf, the Display's input buffer, first character first (10_state.md R38). -/
  inbuf : List Char
  /-- The input lines the host has supplied and refill() has not yet read, without their LF (44_io.md R132, R145). -/
  lines : List (List Char)
  /-- The model's own field: the characters the host has supplied since the last LF (log entry 8). -/
  tail : List Char
  /-- The input stream has ended (44_io.md R137, R145). -/
  closed : Bool
  /-- Every character emitted so far, first one first (44_io.md R130). -/
  output : List Char
  deriving DecidableEq, Repr

/-- The machine constructed from the image of 2^32 zero bytes (10_state.md R39; 70_reset_and_hazards.md R178, R181):
ctl is Ready, every register is its image word, initial_ip is IP's value, inbuf is empty. The image is DESIGN CHOICE
(log entry 1); cur_ip, w, inst and adv are DESIGN CHOICE (log entry 3: the spec leaves them unspecified); the host's
input is DESIGN CHOICE (log entry 8). No run has begun: that takes the host's execute() (log entry 6). -/
def State.reset : State where
  mem := []
  memSize := 2 ^ 32
  ctl := .ready
  initialIp := 0
  curIp := 0
  fetched := 0
  inst := .skip
  adv := false
  inbuf := []
  lines := []
  tail := []
  closed := false
  output := []

end Sys2Proof.Machine
end

