-- ==== Sys2Proof/Machine/Ops.lean ====
section
/-! DEFINITION. The named operations over memory and registers, the completion of an instruction, and taking a fault.
Register names are addresses of the one byte array (10_state.md R21), so every register access goes through memory. -/

namespace Sys2Proof

/-- The fixed address of a register (10_state.md R20). -/
def Reg.addr : Reg → Nat
  | .ip => 0
  | .r0 => 4
  | .r1 => 8
  | .r2 => 12
  | .r3 => 16
  | .cmp => 20
  | .endr => 24
  | .sp => 28

end Sys2Proof

namespace Sys2Proof.Machine

/-! ### Bytes of memory -/

/-- The byte at an address (20_memory.md R42). The list rises, so the search stops at the first larger address. -/
def Memory.byte : Memory → Nat → Byte
  | [], _ => Config.unlistedByte
  | (k, b) :: m, a =>
    if a < k then Config.unlistedByte
    else if a = k then b
    else Memory.byte m a

/-- Memory with byte `v` at address `a`, in canonical form: a byte equal to what an unlisted address reads as is not
listed. -/
def Memory.put : Memory → Nat → Byte → Memory
  | [], a, v => if v = Config.unlistedByte then [] else [(a, v)]
  | (k, b) :: m, a, v =>
    if a < k then (if v = Config.unlistedByte then (k, b) :: m else (a, v) :: (k, b) :: m)
    else if a = k then (if v = Config.unlistedByte then m else (a, v) :: m)
    else (k, b) :: Memory.put m a v

/-- The little-endian word at an address (20_memory.md R45). -/
def Memory.word (m : Memory) (a : Nat) : Word :=
  m.byte (a + 3) ++ m.byte (a + 2) ++ m.byte (a + 1) ++ m.byte a

/-- Byte `k` of a word (20_memory.md R46). -/
def wordSlice (v : Word) (k : Nat) : Byte :=
  v.extractLsb' (8 * k) 8

/-- Memory with the four bytes of `v` written little-endian at an address (20_memory.md R45, R50). -/
def Memory.putWord (m : Memory) (a : Nat) (v : Word) : Memory :=
  (((m.put a (wordSlice v 0)).put (a + 1) (wordSlice v 1)).put (a + 2) (wordSlice v 2)).put (a + 3) (wordSlice v 3)

/-! ### The memory interface with its checks: MemRead and MemWrite of 00_scope.md R13 -/

/-- read_byte, MemRead(a, 1) (20_memory.md R47). -/
def loadByte (s : State) (a : Word) : Except Fault Byte :=
  if s.memSize ≤ a.toNat then .error (.outOfBounds a 1 s.curIp)
  else .ok (s.mem.byte a.toNat)

/-- read_word, MemRead(a, 4): alignment, then bounds (20_memory.md R48; the spec's decision D4). -/
def loadWord (s : State) (a : Word) : Except Fault Word :=
  if a.toNat % 4 ≠ 0 then .error (.misalignedWordAccess a 4 s.curIp)
  else if s.memSize < a.toNat + 4 then .error (.outOfBounds a 4 s.curIp)
  else .ok (s.mem.word a.toNat)

/-- write_word, MemWrite(a, 4, v): both checks come before any byte is written (20_memory.md R50; the spec's decision
D4). -/
def storeWord (s : State) (a v : Word) : Except Fault State :=
  if a.toNat % 4 ≠ 0 then .error (.misalignedWordAccess a 4 s.curIp)
  else if s.memSize < a.toNat + 4 then .error (.outOfBounds a 4 s.curIp)
  else .ok { s with mem := s.mem.putWord a.toNat v }

/-- write_byte of the memory contract (20_memory.md R52). No opcode uses it (R54). -/
def storeByte (s : State) (a : Word) (b : Byte) : Except Fault State :=
  if s.memSize ≤ a.toNat then .error (.outOfBounds a 1 s.curIp)
  else .ok { s with mem := s.mem.put a.toNat b }

/-! ### Registers -/

/-- register_value, x[r]: the word at the register's address (20_memory.md R58). It is MemRead(addr(r), 4) without its
checks, which cannot fail while N is at least 32 (R49; log entry 12). -/
def State.readReg (s : State) (r : Reg) : Word :=
  s.mem.word (r.addr)

/-- set_register_value, x[r] <- v (20_memory.md R58; the checks as for `State.readReg`). -/
def State.writeReg (s : State) (r : Reg) (v : Word) : State :=
  { s with mem := s.mem.putWord (r.addr) v }

/-! ### Faults and completion -/

/-- Fault entry, `raise F(info)`: ctl becomes Faulted and nothing else changes; no register is saved, no mode or mask
changes and control goes nowhere (60_exceptions.md R156). There is no return from a fault (R162), so no operation
undoes this one. -/
def raise (f : Fault) (s : State) : State :=
  { s with ctl := .faulted f }

/-- The outcome of an instruction that raises a fault in state `s`, which holds the effects of the primitives before
the raising step (60_exceptions.md R158; log entry 4). -/
def takeFault (f : Fault) (s : State) : Host.Outcome State Fault Refusal :=
  .next (raise f s)

/-- The state at the end of Execute: adv is latched and the controller goes to Advance (40_cycle.md R101, R102). -/
def endExecute (adv : Bool) (s : State) : State :=
  { s with adv := adv, ctl := .running .advance }

/-- The outcome of an instruction whose Execute ends in state `s` with this advance result (40_cycle.md R102). -/
def complete (adv : Bool) (s : State) : Host.Outcome State Fault Refusal :=
  .next (endExecute adv s)

/-- The state while Execute is blocked on the Display's input: CORE changes nothing but ctl (40_cycle.md R107). -/
def waiting (s : State) : State :=
  { s with ctl := .waitInput }

/-- The outcome of an instruction that waits for input (40_cycle.md R107). -/
def waitForInput (s : State) : Host.Outcome State Fault Refusal :=
  .next (waiting s)

/-! ### The stack -/

/-- The write half of a push: the word `v` at x[SP], then x[SP] re-read and increased by 4 (20_memory.md R60; the
spec's decision D9). A fault leaves memory and SP as they were. -/
def pushWord (s : State) (v : Word) : Except Fault State :=
  match storeWord s (s.readReg .sp) v with
  | .error f => .error f
  | .ok t => .ok (t.writeReg .sp (t.readReg .sp + 4))

/-- The first step of a pop: x[SP] decreased by 4 (20_memory.md R61). It stands even if the read then faults. -/
def dropSlot (s : State) : State :=
  s.writeReg .sp (s.readReg .sp - 4)

/-- pop(r): SP is decreased, the word at the new SP is read, and register `r` gets it; the instruction advances
(20_memory.md R61; 46_stack.md R152; 42_control_transfer.md R121). -/
def popInto (r : Reg) (s : State) : Host.Outcome State Fault Refusal :=
  match loadWord (dropSlot s) ((dropSlot s).readReg .sp) with
  | .error f => takeFault f (dropSlot s)
  | .ok v => complete true ((dropSlot s).writeReg r v)

/-! ### Fault codes -/

/-- The numeric fault codes of 60_exceptions.md R155 (the spec's decision D14). -/
def Fault.code : Fault → Nat
  | .invalidOpcode _ _ => 1
  | .misalignedWordAccess _ _ _ => 2
  | .outOfBounds _ _ _ => 3
  | .divisionByZero _ => 4
  | .malformedNumericInput _ => 5
  | .inputExhausted _ => 6
  | .invalidRegister _ _ _ _ => 7
  | .invalidCharacter _ _ => 8

/-- cur_ip of a fault report: the address of the instruction being executed (60_exceptions.md R157). -/
def Fault.reportedIp : Fault → Word
  | .invalidOpcode _ p => p
  | .misalignedWordAccess _ _ p => p
  | .outOfBounds _ _ p => p
  | .divisionByZero p => p
  | .malformedNumericInput p => p
  | .inputExhausted p => p
  | .invalidRegister _ _ _ p => p
  | .invalidCharacter _ p => p

/-- The fault a decode error becomes, with cur_ip (30_encoding.md R80, R85). -/
def faultOfDecode (e : DecodeError) (curIp : Word) : Fault :=
  match e with
  | .invalidOpcode op => .invalidOpcode op curIp
  | .invalidRegister v k op => .invalidRegister v k op curIp

end Sys2Proof.Machine
end

