-- ==== Sys2Proof/Machine/Flags.lean ====
section
/-! DEFINITION. The flags. CORE has one comparison flag, the register CMP, and one halt flag, the register END
(10_state.md R29, R30); no arithmetic instruction writes a flag. -/

namespace Sys2Proof.Machine

/-- The value a comparison writes: exactly 0 or 1 (45_compare.md R147). -/
def flagWord (b : Bool) : Word :=
  if b then 1 else 0

/-- The write of EQ, LT and LE (45_compare.md R147). -/
def setCmp (s : State) (b : Bool) : State :=
  s.writeReg .cmp (flagWord b)

/-- CMP is set: any non-zero value counts (10_state.md R29). -/
def cmpSet (s : State) : Bool :=
  s.readReg .cmp != 0

/-- END is non-zero, so the run ends at the next Check (10_state.md R30; 40_cycle.md R97). -/
def endSet (s : State) : Bool :=
  s.readReg .endr != 0

end Sys2Proof.Machine
end

