-- ==== Sys2Proof/Machine/Cycle.lean ====
section
/-! DEFINITION. The controller's stages but for Execute (40_cycle.md R95 to R104), each as what it does to the state.
A stage that raises a fault leaves ctl Faulted. -/

namespace Sys2Proof.Machine

/-- Ready: CORE changes no state until the host calls execute() (40_cycle.md R96; 70_reset_and_hazards.md R182). The call
itself is `State.callExecute`. -/
def readyStage (s : State) : State :=
  s

/-- Check: END is tested before every fetch (40_cycle.md R97; the spec's decision D11). -/
def checkStage (s : State) : State :=
  { s with ctl := .running (if endSet s then .exit else .fetch) }

/-- cur_ip takes the address the fetch uses (10_state.md R35). -/
def latchCurIp (s : State) : State :=
  { s with curIp := s.readReg .ip }

/-- Fetch: cur_ip takes x[IP], and the word there goes to Decode (40_cycle.md R98). -/
def fetchStage (s : State) : State :=
  match loadWord (latchCurIp s) (s.readReg .ip) with
  | .error f => raise f (latchCurIp s)
  | .ok w => { latchCurIp s with fetched := w, ctl := .running .decode }

/-- Decode: the inst latch takes the decoded instruction (40_cycle.md R100; 30_encoding.md R89). -/
def decodeStage (s : State) : State :=
  match decode s.fetched with
  | .error e => raise (faultOfDecode e s.curIp) s
  | .ok i => { s with inst := i, ctl := .running .execute }

/-- Advance: 4 is added to IP, re-read after Execute, if adv says so (40_cycle.md R103; the spec's decisions D2, D10). -/
def advanceStage (s : State) : State :=
  { (if s.adv then s.writeReg .ip (s.readReg .ip + 4) else s) with ctl := .running .check }

/-- Exit: IP takes initial_ip, END becomes 0, the controller is Ready (40_cycle.md R104). -/
def exitStage (s : State) : State :=
  { (s.writeReg .ip s.initialIp).writeReg .endr 0 with ctl := .ready }

/-- What follows Execute within the same step: Advance if the instruction completed; if it raised a fault, waits for
input or has not ended, the step ends there (40_cycle.md R99, R101, R105, R107). -/
def afterExecute : Host.Outcome State Fault Refusal → Host.Outcome State Fault Refusal
  | .next t => .next (if t.ctl = .running .advance then advanceStage t else t)
  | .fault f => .fault f
  | .refused r => .refused r

end Sys2Proof.Machine
end

