-- ==== Sys2Proof/Machine/Operands.lean ====
section
/-! DEFINITION. The operand forms: the 16-bit offset and immediate (30_encoding.md R77, R78), the IP-relative address of
LD and of the control transfers, and the transfer itself. Register operands are `State.readReg` and `State.writeReg`. -/

namespace Sys2Proof.Machine

/-- sext_32 of a 16-bit offset (00_scope.md R11; 30_encoding.md R77). -/
def sext32 (off16 : BitVec 16) : Word :=
  off16.signExtend 32

/-- zext_32 of a 16-bit immediate (00_scope.md R11; 30_encoding.md R78). -/
def zextHalf (imm16 : BitVec 16) : Word :=
  imm16.setWidth 32

/-- zext_32 of a byte (00_scope.md R11; 20_memory.md R47). -/
def zextByte (b : Byte) : Word :=
  b.setWidth 32

/-- (x[IP] + sext_32(off16)) mod 2^32: the target of a transfer and the address LD reads (42_control_transfer.md R116;
43_load_move.md R125; the wrap is the spec's decision D2). -/
def ipRelative (s : State) (off16 : BitVec 16) : Word :=
  s.readReg .ip + sext32 off16

/-- The write of a control transfer: IP becomes the target. Nothing checks it here (10_state.md R26, R27). -/
def jumpTo (s : State) (off16 : BitVec 16) : State :=
  s.writeReg .ip (ipRelative s off16)

end Sys2Proof.Machine
end

