-- ==== Sys2Proof/Machine/Arithmetic.lean ====
section
/-! DEFINITION. ADD, SUB, MUL, DIV (41_arithmetic.md R111 to R115). Both sources are read before the destination is
written (R111); no flag is written. -/

namespace Sys2Proof.Machine

/-- ADD: x[r3] <- (x[r1] + x[r2]) mod 2^32 (41_arithmetic.md R112). -/
def execAdd (a b c : Reg) (s : State) : Host.Outcome State Fault Refusal :=
  complete true (s.writeReg c (s.readReg a + s.readReg b))

/-- SUB: x[r3] <- (x[r1] - x[r2]) mod 2^32 (41_arithmetic.md R113). -/
def execSub (a b c : Reg) (s : State) : Host.Outcome State Fault Refusal :=
  complete true (s.writeReg c (s.readReg a - s.readReg b))

/-- MUL: the low 32 bits of the product (41_arithmetic.md R114). -/
def execMul (a b c : Reg) (s : State) : Host.Outcome State Fault Refusal :=
  complete true (s.writeReg c (s.readReg a * s.readReg b))

/-- DIV: unsigned, truncating; a zero divisor raises DivisionByZero and writes nothing (41_arithmetic.md R115; unsigned
is the spec's decision D12). -/
def execDiv (a b c : Reg) (s : State) : Host.Outcome State Fault Refusal :=
  if s.readReg b = 0 then takeFault (.divisionByZero s.curIp) s
  else complete true (s.writeReg c (BitVec.udiv (s.readReg a) (s.readReg b)))

end Sys2Proof.Machine
end

