-- ==== Sys2Proof/Machine/Compare.lean ====
section
/-! DEFINITION. EQ, LT, LE (45_compare.md R147 to R150): unsigned, both operands read before CMP is written. -/

namespace Sys2Proof.Machine

/-- EQ: CMP <- left = right (45_compare.md R148). -/
def execEq (a b : Reg) (s : State) : Host.Outcome State Fault Refusal :=
  complete true (setCmp s (s.readReg a == s.readReg b))

/-- LT: CMP <- left < right, unsigned (45_compare.md R149). -/
def execLt (a b : Reg) (s : State) : Host.Outcome State Fault Refusal :=
  complete true (setCmp s (BitVec.ult (s.readReg a) (s.readReg b)))

/-- LE: CMP <- left <= right, unsigned (45_compare.md R150). -/
def execLe (a b : Reg) (s : State) : Host.Outcome State Fault Refusal :=
  complete true (setCmp s (BitVec.ule (s.readReg a) (s.readReg b)))

end Sys2Proof.Machine
end

