-- ==== Sys2Proof/Machine/Control.lean ====
section
/-! DEFINITION. JMP, JEQ, JNE, CALL, RET, FIN, SKIP (42_control_transfer.md R116 to R124). -/

namespace Sys2Proof.Machine

/-- JMP (42_control_transfer.md R117). -/
def execJmp (off16 : BitVec 16) (s : State) : Host.Outcome State Fault Refusal :=
  complete false (jumpTo s off16)

/-- JEQ: taken if CMP is not 0 (42_control_transfer.md R118). -/
def execJeq (off16 : BitVec 16) (s : State) : Host.Outcome State Fault Refusal :=
  if cmpSet s then complete false (jumpTo s off16) else complete true s

/-- JNE: taken if CMP is 0 (42_control_transfer.md R119). -/
def execJne (off16 : BitVec 16) (s : State) : Host.Outcome State Fault Refusal :=
  if cmpSet s then complete true s else complete false (jumpTo s off16)

/-- CALL: its own address is pushed, then IP takes the target (42_control_transfer.md R120). -/
def execCall (off16 : BitVec 16) (s : State) : Host.Outcome State Fault Refusal :=
  match pushWord s (s.readReg .ip) with
  | .error f => takeFault f s
  | .ok t => complete false (jumpTo t off16)

/-- RET: IP is popped, and Advance adds 4 to it (42_control_transfer.md R121). -/
def execRet (s : State) : Host.Outcome State Fault Refusal :=
  popInto .ip s

/-- FIN: END becomes 1, with no advance (42_control_transfer.md R122). -/
def execFin (s : State) : Host.Outcome State Fault Refusal :=
  complete false (s.writeReg .endr 1)

/-- SKIP: nothing but the advance (42_control_transfer.md R123). -/
def execSkip (s : State) : Host.Outcome State Fault Refusal :=
  complete true s

end Sys2Proof.Machine
end

