-- ==== Sys2Proof/Machine/Console.lean ====
section
/-! DEFINITION. The Display boundary as CORE observes it (44_io.md R129 to R137): Emit, refill, GetChar and GetNum, and
the decimal texts of OUTNUM and INNUM (R141, R142). A character is a Unicode scalar value, which is what Lean's `Char`
holds (R143; log entry 14). -/

namespace Sys2Proof.Machine

/-! ### Output -/

/-- Emit(c): the character joins the end of the output stream; it never fails and never blocks (44_io.md R130; log
entry 10). -/
def emit (s : State) (c : Char) : State :=
  { s with output := s.output ++ [c] }

/-- Emit each character of a text, first one first. -/
def emitAll (s : State) (cs : List Char) : State :=
  { s with output := s.output ++ cs }

/-- The character OUT prints for a byte: its code is the byte's value (44_io.md R138; the spec's decision D16). -/
def charOfByte (b : Byte) : Char :=
  Char.ofNat b.toNat

/-- The character with a given code, where the code is a Unicode scalar value (44_io.md R140, R143; the spec's decision
D17). -/
def charOfCode (v : Word) : Option Char :=
  if 0x10FFFF < v.toNat ∨ (0xD800 ≤ v.toNat ∧ v.toNat ≤ 0xDFFF) then none
  else some (Char.ofNat v.toNat)

/-- The code point of a character as a register value (44_io.md R139). -/
def codeOfChar (c : Char) : Word :=
  BitVec.ofNat 32 c.toNat

/-! ### Decimal -/

/-- The digit 0x30 + d. -/
def digitChar (d : Nat) : Char :=
  Char.ofNat (0x30 + d)

/-- The ten decimal places of a u32, the most significant first: place `k` holds v / 10^k mod 10. -/
def decimalPlaces (v : Word) : List Nat :=
  [9, 8, 7, 6, 5, 4, 3, 2, 1, 0].map fun k => v.toNat / 10 ^ k % 10

/-- decimal(v): the shortest digit string, no sign and no leading zeros, "0" for 0 (44_io.md R141; the spec's decision
D18). -/
def decimal (v : Word) : List Char :=
  if v = 0 then [digitChar 0]
  else ((decimalPlaces v).dropWhile fun d => d == 0).map digitChar

/-- An ASCII digit's value (44_io.md R142). -/
def digitValue (c : Char) : Option Nat :=
  if 0x30 ≤ c.toNat ∧ c.toNat ≤ 0x39 then some (c.toNat - 0x30) else none

/-- The value of a string of ASCII digits after a prefix of value `acc`; none at a character that is no digit. -/
def digitsValue : Nat → List Char → Option Nat
  | acc, [] => some acc
  | acc, c :: cs =>
    match digitValue c with
    | none => none
    | some d => digitsValue (10 * acc + d) cs

/-- A valid decimal: one or more ASCII digits and nothing else, of value at most 2^32 - 1; leading zeros are allowed
(44_io.md R142; the spec's decision D19). -/
def parseDecimal (cs : List Char) : Option Word :=
  if cs = [] then none
  else
    match digitsValue 0 cs with
    | none => none
    | some n => if n < 2 ^ 32 then some (BitVec.ofNat 32 n) else none

/-! ### Input -/

/-- What an input operation of the Display ends in. Each carries the state with the Display's buffers as it leaves them
(60_exceptions.md R158). -/
inductive Input (α : Type) where
  /-- The operation returned a value. -/
  | got (v : α) (s : State)
  /-- No line is available and the stream is open: the machine waits (44_io.md R136). -/
  | blocked (s : State)
  /-- A refill found the stream ended with no data (44_io.md R137). -/
  | exhausted (s : State)
  /-- GetNum's buffer was no valid decimal (44_io.md R134). -/
  | malformed (s : State)

/-- A refill with no line to read: it blocks while the stream is open and fails once it is closed (44_io.md R132, R136,
R137). -/
def noLine {α : Type} (s : State) : Input α :=
  if s.closed then .exhausted s else .blocked s

/-- refill(): inbuf becomes the next line of the input stream (44_io.md R132). -/
def refill (s : State) : Input Unit :=
  match s.lines with
  | [] => noLine s
  | l :: ls => .got () { s with inbuf := l, lines := ls }

/-- GetChar's loop while inbuf is empty: an empty line leaves it empty, and the loop reads the next (44_io.md R133; the
spec's decision D21). `ls` is what the input still holds. -/
def getCharRefilling : List (List Char) → State → Input Char
  | [], s => noLine { s with lines := [] }
  | [] :: ls, s => getCharRefilling ls s
  | (c :: rest) :: ls, s => .got c { s with inbuf := rest, lines := ls }

/-- GetChar() (44_io.md R133). -/
def getChar (s : State) : Input Char :=
  match s.inbuf with
  | c :: rest => .got c { s with inbuf := rest }
  | [] => getCharRefilling s.lines s

/-- The second half of GetNum: the whole buffer is taken, the buffer is cleared before the parse (44_io.md R134). -/
def takeNumber (s : State) : Input Word :=
  match parseDecimal s.inbuf with
  | none => .malformed { s with inbuf := [] }
  | some n => .got n { s with inbuf := [] }

/-- GetNum(): one refill if inbuf is empty, and then the parse, of an empty line too (44_io.md R134; the spec's decision
D21). -/
def getNum (s : State) : Input Word :=
  match s.inbuf with
  | _ :: _ => takeNumber s
  | [] =>
    match refill s with
    | .got _ t => takeNumber t
    | .blocked t => .blocked t
    | .exhausted t => .exhausted t
    | .malformed t => .malformed t

/-- The Execute step of an input instruction with destination `r`: on a value, `r` gets it and the instruction advances;
the other endings wait or raise (44_io.md R136, R137, R139, R142). -/
def finishInput (r : Reg) (i : Input Word) : Host.Outcome State Fault Refusal :=
  match i with
  | .got v s => complete true (s.writeReg r v)
  | .blocked s => waitForInput s
  | .exhausted s => takeFault (.inputExhausted s.curIp) s
  | .malformed s => takeFault (.malformedNumericInput s.curIp) s

end Sys2Proof.Machine
end

