-- ==== Sys2Proof/Machine/Io.lean ====
section
/-! DEFINITION. OUT, IN, OUTR, OUTNUM, INNUM (44_io.md R138 to R142) over the Display boundary of Machine/Console.lean. -/

namespace Sys2Proof.Machine

/-- OUT's loop from address `a`: bytes are emitted until a zero byte, which is not. `rounds` counts the addresses still
unread of the 2^32; when none is left the string has no end (possible only with N = 2^32), the address is back at
x[reg], and Execute goes on in the next step (44_io.md R138; log entry 11). -/
def outLoop : Nat → Word → State → Host.Outcome State Fault Refusal
  | 0, _, s => .next { s with ctl := .running .execute }
  | rounds + 1, a, s =>
    match loadByte s a with
    | .error f => takeFault f s
    | .ok b => if b = 0 then complete true s else outLoop rounds (a + 1) (emit s (charOfByte b))

/-- OUT: print the NUL-terminated byte string at x[reg] (44_io.md R138). -/
def execOut (r : Reg) (s : State) : Host.Outcome State Fault Refusal :=
  outLoop Config.addressSpace (s.readReg r) s

/-- IN: one character's code point (44_io.md R139). -/
def execIn (r : Reg) (s : State) : Host.Outcome State Fault Refusal :=
  match getChar s with
  | .got c t => finishInput r (.got (codeOfChar c) t)
  | .blocked t => finishInput r (.blocked t)
  | .exhausted t => finishInput r (.exhausted t)
  | .malformed t => finishInput r (.malformed t)

/-- OUTR: print the character whose code is x[reg]; a value that is no Unicode scalar value raises InvalidCharacter
(44_io.md R140). -/
def execOutr (r : Reg) (s : State) : Host.Outcome State Fault Refusal :=
  match charOfCode (s.readReg r) with
  | none => takeFault (.invalidCharacter (s.readReg r) s.curIp) s
  | some c => complete true (emit s c)

/-- OUTNUM: print x[reg] in unsigned decimal (44_io.md R141). -/
def execOutnum (r : Reg) (s : State) : Host.Outcome State Fault Refusal :=
  complete true (emitAll s (decimal (s.readReg r)))

/-- INNUM: read an unsigned decimal number (44_io.md R142). -/
def execInnum (r : Reg) (s : State) : Host.Outcome State Fault Refusal :=
  finishInput r (getNum s)

end Sys2Proof.Machine
end

