-- ==== Sys2Proof/Machine/LoadMove.lean ====
section
/-! DEFINITION. LD, LDABS, MOV (43_load_move.md R125 to R128). -/

namespace Sys2Proof.Machine

/-- LD: the byte at x[IP] + offset, zero-extended; OutOfBounds leaves the register as it was (43_load_move.md R125). -/
def execLd (r : Reg) (off16 : BitVec 16) (s : State) : Host.Outcome State Fault Refusal :=
  match loadByte s (ipRelative s off16) with
  | .error f => takeFault f s
  | .ok b => complete true (s.writeReg r (zextByte b))

/-- LDABS: the 16-bit immediate, zero-extended (43_load_move.md R126). -/
def execLdabs (r : Reg) (imm16 : BitVec 16) (s : State) : Host.Outcome State Fault Refusal :=
  complete true (s.writeReg r (zextHalf imm16))

/-- MOV: x[dst] <- x[src] (43_load_move.md R127). -/
def execMov (src dst : Reg) (s : State) : Host.Outcome State Fault Refusal :=
  complete true (s.writeReg dst (s.readReg src))

end Sys2Proof.Machine
end

