-- ==== Sys2Proof/Machine/Stack.lean ====
section
/-! DEFINITION. PUSH, POP (46_stack.md R151 to R153) over the stack primitives of Machine/Ops.lean. -/

namespace Sys2Proof.Machine

/-- PUSH: the register's value goes to the word at x[SP], then SP is increased by 4 (46_stack.md R151). -/
def execPush (r : Reg) (s : State) : Host.Outcome State Fault Refusal :=
  match pushWord s (s.readReg r) with
  | .error f => takeFault f s
  | .ok t => complete true t

/-- POP: SP is decreased by 4, then the register gets the word there (46_stack.md R152). -/
def execPop (r : Reg) (s : State) : Host.Outcome State Fault Refusal :=
  popInto r s

end Sys2Proof.Machine
end

