-- ==== Sys2Proof/Machine/Dispatch.lean ====
section
/-! DEFINITION. Execute (40_cycle.md R101): one arm per instruction, each one call of its meaning. -/

namespace Sys2Proof.Machine

def exec (i : Instr) (s : State) : Host.Outcome State Fault Refusal :=
  match i with
  | .add a b c => Sys2Proof.Machine.execAdd a b c s
  | .sub a b c => Sys2Proof.Machine.execSub a b c s
  | .mul a b c => Sys2Proof.Machine.execMul a b c s
  | .div a b c => Sys2Proof.Machine.execDiv a b c s
  | .jmp o => Sys2Proof.Machine.execJmp o s
  | .ld r o => Sys2Proof.Machine.execLd r o s
  | .fin => Sys2Proof.Machine.execFin s
  | .out r => Sys2Proof.Machine.execOut r s
  | .eq a b => Sys2Proof.Machine.execEq a b s
  | .lt a b => Sys2Proof.Machine.execLt a b s
  | .le a b => Sys2Proof.Machine.execLe a b s
  | .ldabs r v => Sys2Proof.Machine.execLdabs r v s
  | .inp r => Sys2Proof.Machine.execIn r s
  | .jeq o => Sys2Proof.Machine.execJeq o s
  | .jne o => Sys2Proof.Machine.execJne o s
  | .outr r => Sys2Proof.Machine.execOutr r s
  | .skip => Sys2Proof.Machine.execSkip s
  | .outnum r => Sys2Proof.Machine.execOutnum r s
  | .mov a b => Sys2Proof.Machine.execMov a b s
  | .innum r => Sys2Proof.Machine.execInnum r s
  | .push r => Sys2Proof.Machine.execPush r s
  | .pop r => Sys2Proof.Machine.execPop r s
  | .call o => Sys2Proof.Machine.execCall o s
  | .ret => Sys2Proof.Machine.execRet s

end Sys2Proof.Machine
end

