-- ==== Sys2Proof/Machine/HostInterface.lean ====
section
/-! DEFINITION. The host's moves (60_exceptions.md R173; 70_reset_and_hazards.md R181; 40_cycle.md R96; 44_io.md R132,
R145). A step never makes one; a host may make one between two steps. None writes memory (60_exceptions.md R174). -/

namespace Sys2Proof.Machine

/-- Memory holding an image from address `a` on (70_reset_and_hazards.md R179). -/
def Memory.ofImageFrom : Nat → List Byte → Memory
  | _, [] => []
  | a, b :: bs => if b = Config.unlistedByte then Memory.ofImageFrom (a + 1) bs else (a, b) :: Memory.ofImageFrom (a + 1) bs

/-- construct(image): images shorter than 32 bytes or longer than 2^32 are refused; memory is the image, initial_ip is
latched from IP, inbuf is empty and ctl is Ready (70_reset_and_hazards.md R181; 60_exceptions.md R176). The fields the
spec leaves unspecified, and the host's own, are as in `State.reset`. -/
def State.construct (image : List Byte) : Option State :=
  if image.length < Config.minMemSize ∨ Config.addressSpace < image.length then none
  else
    let m := Memory.ofImageFrom 0 image
    some { State.reset with mem := m, memSize := image.length, initialIp := m.word 0 }

/-- execute(): accepted only in Ready, and it moves ctl to Check at once, so no second call is accepted before the run has
returned (40_cycle.md R96; 60_exceptions.md R173; log entry 6). -/
def State.callExecute (s : State) : Option State :=
  if s.ctl = .ready then some { s with ctl := .running .check } else none

/-- One character of the input stream arrives. An LF ends a line and is removed; a CR is kept (44_io.md R132; the spec's
decision D20). Nothing arrives once the stream has ended. -/
def State.receiveChar (s : State) (c : Char) : State :=
  if s.closed then s
  else if c = '\n' then { s with lines := s.lines ++ [s.tail], tail := [] }
  else { s with tail := s.tail ++ [c] }

/-- A text of the input stream arrives, first character first. -/
def State.receiveText (s : State) (cs : List Char) : State :=
  cs.foldl State.receiveChar s

/-- The host supplies one input line (60_exceptions.md R173). -/
def State.supplyLine (s : State) (l : List Char) : State :=
  (s.receiveText l).receiveChar '\n'

/-- The host closes the input: what has arrived since the last LF, if it is any data, is a last line (44_io.md R132,
R137). -/
def State.closeInput (s : State) : State :=
  if s.closed then s
  else { s with closed := true, lines := if s.tail = [] then s.lines else s.lines ++ [s.tail], tail := [] }

/-- The fault report the host gets of a Faulted machine: the fault with its payload (60_exceptions.md R157). -/
def State.faultReport (s : State) : Option Fault :=
  match s.ctl with
  | .faulted f => some f
  | _ => none

/-- The host's view of memory: a byte of it, in Ready or Faulted (10_state.md R41; 60_exceptions.md R173). -/
def State.inspect (s : State) (a : Nat) : Option Byte :=
  match s.ctl with
  | .ready | .faulted _ => if a < s.memSize then some (s.mem.byte a) else none
  | _ => none

end Sys2Proof.Machine
end

