-- ==== Sys2Proof/Machine/Step.lean ====
section
/-! DEFINITION. One step of the machine: a whole instruction from Check to the next Check as one transition (40_cycle.md
R105; 70_reset_and_hazards.md R192), in the order of the controller's states (R94). -/

namespace Sys2Proof.Machine

/-- Execute of the latched instruction, and Advance if it completed (40_cycle.md R101, R103). -/
def runExecute (s : State) : Host.Outcome State Fault Refusal :=
  afterExecute (exec s.inst s)

/-- Decode and what follows it (40_cycle.md R100). -/
def runDecode (s : State) : Host.Outcome State Fault Refusal :=
  if (decodeStage s).ctl = .running .execute then runExecute (decodeStage s) else .next (decodeStage s)

/-- Fetch and what follows it (40_cycle.md R98). -/
def runFetch (s : State) : Host.Outcome State Fault Refusal :=
  if (fetchStage s).ctl = .running .decode then runDecode (fetchStage s) else .next (fetchStage s)

/-- Check and what follows it: Exit, or a whole instruction (40_cycle.md R97, R105). -/
def runCheck (s : State) : Host.Outcome State Fault Refusal :=
  if (checkStage s).ctl = .running .fetch then runFetch (checkStage s) else .next (exitStage (checkStage s))

/-- One step, from whatever state the controller is in (40_cycle.md R94). A waiting instruction is tried again
(R107); a Faulted machine takes no step and the host gets its report (R99; 60_exceptions.md R157). -/
def step (s : State) : Host.Outcome State Fault Refusal :=
  match s.ctl with
  | .ready => .next (readyStage s)
  | .running .check => runCheck s
  | .running .fetch => runFetch s
  | .running .decode => runDecode s
  | .running .execute => runExecute s
  | .running .advance => .next (advanceStage s)
  | .running .exit => .next (exitStage s)
  | .waitInput => runExecute s
  | .faulted f => .fault f

/-- The address step fetches from can hold an instruction: it is aligned, in memory, and neither IP's own word nor END's
(an instruction stored there would change what Check and Fetch read). -/
def fetchable (s : State) : Bool :=
  let a := (s.readReg .ip).toNat
  a % 4 == 0 && a + 4 ≤ s.memSize && a != 0 && a != 24

/-- `s` with the instruction of `nbits` bits `w` (the opcode table's numbering, every bit above them 0) stored where the
next step fetches: the controller is at Check with END 0, IP stays where it is if an instruction can stand there and
points at address 32 otherwise, and the word stands at IP (log entry 7). -/
def State.withFetchWord (s : State) (nbits w : Nat) : State :=
  let s1 := { s with ctl := .running .check }
  let s2 := if endSet s1 then s1.writeReg .endr 0 else s1
  let s3 := if fetchable s2 then s2 else { s2.writeReg .ip 32 with memSize := max s2.memSize 36 }
  { s3 with mem := s3.mem.putWord (s3.readReg .ip).toNat (BitVec.ofNat 32 (w % 2 ^ nbits)) }

end Sys2Proof.Machine
end

