-- ==== Sys2Proof/Safety.lean ====
section
/-! DEFINITION. The terms the claims are stated in: the well-formed states, the invariant of a run, safe runs, and what
an instruction leaves as it was. -/

namespace Sys2Proof.Machine

/-- The memory a construction can give and a run keeps: N is in its range (00_scope.md R8), the list of bytes is in its
canonical form, and no byte outside [0, N) is listed (20_memory.md R42). -/
abbrev State.wf (s : State) : Prop :=
  Config.minMemSize ≤ s.memSize ∧ s.memSize ≤ Config.addressSpace ∧ s.mem.wf ∧ ∀ c ∈ s.mem, c.1 < s.memSize

/-- No line the Display holds has an LF in it: refill() hands out lines with their newline removed (44_io.md R132). -/
abbrev State.noNewlineBuffered (s : State) : Prop :=
  '\n' ∉ s.inbuf ∧ '\n' ∉ s.tail ∧ ∀ l ∈ s.lines, '\n' ∉ l

/-- The invariant: the state is well-formed; a fault report names the instruction being executed (60_exceptions.md
R157); only IN and INNUM wait, and only with an empty buffer (40_cycle.md R107, 44_io.md R133, R134); no buffered line
holds an LF (R132). -/
def State.inv (s : State) : Prop :=
  s.wf ∧
  (∀ f, s.ctl = .faulted f → f.reportedIp = s.curIp) ∧
  (s.ctl = .waitInput → s.inbuf = [] ∧ ∃ r, s.inst = .inp r ∨ s.inst = .innum r) ∧
  s.noNewlineBuffered

/-- A safe state: the run has not been aborted by a fault (40_cycle.md R99, R108). -/
def State.safe (s : State) : Prop :=
  ∀ f, s.ctl ≠ .faulted f

/-- The moves a host may make between two steps that change the state: execute(), a character of input, the end of the
input (60_exceptions.md R173). A line is its characters and an LF; inspection and the fault report change nothing. -/
inductive HostMove (s : State) : State → Prop where
  | execute (t : State) (h : s.callExecute = some t) : HostMove s t
  | character (c : Char) : HostMove s (s.receiveChar c)
  | close : HostMove s s.closeInput

/-- A state reached from `s` by steps of the machine and moves of the host. -/
inductive Reaches (s : State) : State → Prop where
  | start : Reaches s s
  | step (t u : State) (h : Reaches s t) (hs : step t = .next u) : Reaches s u
  | host (t u : State) (h : Reaches s t) (hm : HostMove t u) : Reaches s u

/-- Safe runs from `s`: whatever the host does, no state they reach is Faulted. -/
def State.safeRun (s : State) : Prop :=
  ∀ t, Reaches s t → t.safe

/-! ### What an instruction leaves as it was -/

/-- N, initial_ip, cur_ip, w and inst are as they were. -/
def sameLatches (s t : State) : Prop :=
  t.memSize = s.memSize ∧ t.initialIp = s.initialIp ∧ t.curIp = s.curIp ∧ t.fetched = s.fetched ∧ t.inst = s.inst

/-- The Display's input side is as it was: inbuf, the unread lines, the unfinished line, the closed flag. -/
def sameInput (s t : State) : Prop :=
  t.inbuf = s.inbuf ∧ t.lines = s.lines ∧ t.tail = s.tail ∧ t.closed = s.closed

/-- The Display is as it was, the output stream included. -/
def sameConsole (s t : State) : Prop :=
  sameInput s t ∧ t.output = s.output

/-- Every byte of memory outside the `n` bytes from `lo` on is as it was. -/
def sameBytesBut (lo n : Nat) (s t : State) : Prop :=
  ∀ a, (a < lo ∨ lo + n ≤ a) → t.mem.byte a = s.mem.byte a

/-- Every register but `r` is as it was. -/
def sameRegsBut (r : Reg) (s t : State) : Prop :=
  ∀ q, q ≠ r → t.readReg q = s.readReg q

/-- Execute ended, with this advance result (40_cycle.md R101, R102). -/
def ended (adv : Bool) (t : State) : Prop :=
  t.adv = adv ∧ t.ctl = .running .advance

/-- Register `r` is the only register, and its four bytes the only bytes, that may differ between `s` and `t`; `r` holds
`v`; the latches and the Display are as they were. -/
def onlyWrites (s t : State) (r : Reg) (v : Word) : Prop :=
  t.readReg r = v ∧ sameRegsBut r s t ∧ sameBytesBut r.addr 4 s t ∧ sameLatches s t ∧ sameConsole s t

end Sys2Proof.Machine
end

