-- ==== Sys2Proof/Certificates/Slice0/Obligations.lean ====
section
/-! DEFINITION. The statements for the provers. Each docstring names the rule of spec/ it formalises; where a clause
rests on a decision the spec marks as its own (92_eei_decisions.md D<n>) or on the model's own choice (log entry <n>),
the docstring says so and the statement's basis is 'derived'. -/

open Sys2Proof Sys2Proof.Machine

/-! ### Encoding -/

/-- 30_encoding.md R69 to R79, R84, R89: decoding the encoding of an instruction gives that instruction back, for
every instruction and every value of every operand, so no bit of an encoding is dropped. -/
def Obligations.DecodeOfEncodeIsTheInstruction : Prop :=
  ∀ i : Instr, decode (encode i) = .ok i

/-- 30_encoding.md sections 3 and 4 and the vectors of 95_test_vectors.md sections 2.3 to 2.7: words written out byte
by byte, one or more of each family. That EQ and MOV take registers is the spec's decision D7, and that FIN ignores
its other bytes its decision D6 (log entry 15). -/
def Obligations.SampleWordsDecodeAsTheSpecSays : Prop :=
  decode 0x0C080401 = .ok (.add .r0 .r1 .r2) ∧ decode 0x00FFF40F = .ok (.jne 0xFFF4) ∧
  decode 0xFFFC1006 = .ok (.ld .r3 0xFFFC) ∧ decode 0x0007040C = .ok (.ldabs .r0 7) ∧
  decode 0x00080413 = .ok (.mov .r0 .r1) ∧ decode 0x00100409 = .ok (.eq .r0 .r3) ∧
  decode 0x00001C16 = .ok (.pop .sp) ∧ decode 0x00000408 = .ok (.out .r0) ∧ decode 0x3412FF07 = .ok .fin

/-- 30_encoding.md section 4, invalid opcodes (0x19 among them is the spec's decision D8): byte 0 is 0x00 or 0x19 to
0xFF. Decode rejects the word by its opcode; a controller in Decode takes the fault InvalidOpcode with nothing else
changed; and a step from Check with END = 0, whose word at an aligned IP in memory is such a word, takes it with only
cur_ip, w and ctl changed (60_exceptions.md section 1). -/
def Obligations.InvalidOpcodeIsRejected : Prop :=
  (∀ w : Word, w.extractLsb' 0 8 = 0 ∨ 0x19 ≤ (w.extractLsb' 0 8).toNat →
    decode w = .error (.invalidOpcode (w.extractLsb' 0 8))) ∧
  (∀ s : State, s.ctl = .running .decode →
    (s.fetched.extractLsb' 0 8 = 0 ∨ 0x19 ≤ (s.fetched.extractLsb' 0 8).toNat) →
    step s = .next { s with ctl := .faulted (.invalidOpcode (s.fetched.extractLsb' 0 8) s.curIp) }) ∧
  ∀ (s : State) (p w : Word), s.ctl = .running .check → s.readReg .endr = 0 → s.readReg .ip = p →
    p.toNat % 4 = 0 → p.toNat + 4 ≤ s.memSize → s.mem.word p.toNat = w →
    (w.extractLsb' 0 8 = 0 ∨ 0x19 ≤ (w.extractLsb' 0 8).toNat) →
    step s = .next { s with
      curIp := p, fetched := w, ctl := .faulted (.invalidOpcode (w.extractLsb' 0 8) p) }

/-- 30_encoding.md section 3 and section 4 (the spec's decisions D5 and D15, 90_conflicts.md C10): the first register
field, from byte 1 upward, whose byte names no register is reported, with its value, position and the opcode: by
decode; by a controller in Decode, with nothing else changed; and by a step from Check with END = 0, whose word at an
aligned IP in memory is such a word, with only cur_ip, w and ctl changed (60_exceptions.md section 1). -/
def Obligations.FirstBadRegisterByteIsRejected : Prop :=
  ∀ (w : Word) (fmt : Format) (k : Nat), formatOf (wordByte w 0).toNat = some fmt → k ∈ fmt.registerPositions →
    registerByte (wordByte w k) = false →
    (∀ j ∈ fmt.registerPositions, j < k → registerByte (wordByte w j) = true) →
    decode w = .error (.invalidRegister (wordByte w k) k (wordByte w 0)) ∧
    (∀ s : State, s.ctl = .running .decode → s.fetched = w →
      step s = .next { s with ctl := .faulted (.invalidRegister (wordByte w k) k (wordByte w 0) s.curIp) }) ∧
    ∀ (s : State) (p : Word), s.ctl = .running .check → s.readReg .endr = 0 → s.readReg .ip = p →
      p.toNat % 4 = 0 → p.toNat + 4 ≤ s.memSize → s.mem.word p.toNat = w →
      step s = .next { s with
        curIp := p, fetched := w, ctl := .faulted (.invalidRegister (wordByte w k) k (wordByte w 0) p) }

/-- 30_encoding.md section 4: decode is total, and the words it accepts are exactly those whose opcode is in the map
and whose register fields name registers (the check read from the format tables in WellFormed.lean; D5 for the
register fields). -/
def Obligations.DecodeAcceptsExactlyTheWellFormedWords : Prop :=
  ∀ w : Word, (∃ i, decode w = .ok i) ↔ wordWellFormed w = true

/-- 30_encoding.md section 3 (the spec's decision D6): two words that agree on the bytes their format uses decode
alike. -/
def Obligations.UnusedBytesAreIgnored : Prop :=
  ∀ (w v : Word) (fmt : Format), formatOf (wordByte w 0).toNat = some fmt →
    (∀ k ∈ fmt.usedPositions, wordByte v k = wordByte w k) → decode v = decode w

/-! ### Memory and registers -/

/-- 20_memory.md R45: a word read at address a is mem[a] + mem[a+1]*2^8 + mem[a+2]*2^16 + mem[a+3]*2^24; its byte 0 is
the byte at a, its 16-bit fields at bytes 1..2 and 2..3 are little-endian too, and the fetch takes the same word. -/
def Obligations.WordsAreLittleEndian : Prop :=
  ∀ (s : State) (a v : Word), loadWord s a = .ok v →
    v.toNat = (s.mem.byte a.toNat).toNat + (s.mem.byte (a.toNat + 1)).toNat * 2 ^ 8 +
      (s.mem.byte (a.toNat + 2)).toNat * 2 ^ 16 + (s.mem.byte (a.toNat + 3)).toNat * 2 ^ 24 ∧
    v.extractLsb' 0 8 = s.mem.byte a.toNat ∧
    (v.extractLsb' 8 16).toNat = (s.mem.byte (a.toNat + 1)).toNat + (s.mem.byte (a.toNat + 2)).toNat * 2 ^ 8 ∧
    (v.extractLsb' 16 16).toNat = (s.mem.byte (a.toNat + 2)).toNat + (s.mem.byte (a.toNat + 3)).toNat * 2 ^ 8 ∧
    (s.readReg .ip = a → (fetchStage s).fetched = v)

/-- 20_memory.md section 2 and section 3 (the spec's decision D4 for the checks): a word that is stored reads back as
a word and byte by byte, every byte outside it is as it was, and nothing but memory changes. -/
def Obligations.StoredWordReadsBack : Prop :=
  ∀ (s t : State) (a v : Word), s.wf → storeWord s a v = .ok t →
    loadWord t a = .ok v ∧
    (∀ k : Nat, k < 4 → loadByte t (a + BitVec.ofNat 32 k) = .ok (v.extractLsb' (8 * k) 8)) ∧
    sameBytesBut a.toNat 4 s t ∧ sameLatches s t ∧ sameConsole s t ∧ t.ctl = s.ctl ∧ t.adv = s.adv

/-- 10_state.md section 1 (aliasing): a word stored at a register's address is that register's new value and changes
no other register; a register written by name is read back byte by byte at its address. -/
def Obligations.RegistersAreMemoryWords : Prop :=
  (∀ (s t : State) (r : Reg) (v : Word), s.wf → storeWord s (BitVec.ofNat 32 r.addr) v = .ok t → onlyWrites s t r v) ∧
  ∀ (s : State) (r : Reg) (v : Word) (k : Nat), s.wf → k < 4 →
    loadByte (s.writeReg r v) (BitVec.ofNat 32 (r.addr + k)) = .ok (v.extractLsb' (8 * k) 8)

/-! ### The controller -/

/-- 40_cycle.md section 4: a step from Check with END = 0, whose word at IP decodes to `i`, is exec of `i` from the
state with cur_ip, w and inst latched, and then Advance if Execute ended (log entry 5: one step is one
instruction). -/
def Obligations.StepRunsTheDecodedInstruction : Prop :=
  ∀ (s : State) (i : Instr), s.ctl = .running .check → s.readReg .endr = 0 →
    (s.readReg .ip).toNat % 4 = 0 → (s.readReg .ip).toNat + 4 ≤ s.memSize →
    decode (s.mem.word (s.readReg .ip).toNat) = .ok i →
    step s =
      match exec i { s with
          curIp := s.readReg .ip, fetched := s.mem.word (s.readReg .ip).toNat, inst := i,
          ctl := .running .execute } with
      | .next t => .next (if t.ctl = .running .advance then advanceStage t else t)
      | .fault f => .fault f
      | .refused r => .refused r

/-- 40_cycle.md section 3, Advance (the spec's decisions D2 and D10): if adv is set, IP as it stands after Execute is
increased by 4 modulo 2^32 and nothing else is written; if not, nothing is. The controller is at Check again. -/
def Obligations.AdvanceAddsFourToIp : Prop :=
  ∀ s : State, s.wf → s.ctl = .running .advance →
    ∃ t, step s = .next t ∧ t.ctl = .running .check ∧ t.adv = s.adv ∧
      (s.adv = true → onlyWrites s t .ip (BitVec.ofNat 32 (((s.readReg .ip).toNat + 4) % 2 ^ 32))) ∧
      (s.adv = false → t = { s with ctl := .running .check })

/-- 40_cycle.md section 3, Check (the spec's decision D11): END is tested before the fetch; a run that finds it
non-zero executes no instruction, and the step is the Exit. -/
def Obligations.CheckWithEndSetExits : Prop :=
  ∀ s : State, s.ctl = .running .check → s.readReg .endr ≠ 0 → step s = step { s with ctl := .running .exit }

/-- 40_cycle.md R104 and R110: Exit sets IP to initial_ip, END to 0 and ctl to Ready; every other register, every byte
from 4 to 23 and from 28 up, every latch and the Display are as they were. -/
def Obligations.ExitResetsOnlyIpAndEnd : Prop :=
  ∀ s : State, s.wf → s.ctl = .running .exit →
    ∃ t, step s = .next t ∧ t.readReg .ip = s.initialIp ∧ t.readReg .endr = 0 ∧ t.ctl = .ready ∧
      (∀ q : Reg, q ≠ .ip → q ≠ .endr → t.readReg q = s.readReg q) ∧
      (∀ a, 4 ≤ a → (a < 24 ∨ 28 ≤ a) → t.mem.byte a = s.mem.byte a) ∧
      sameLatches s t ∧ sameConsole s t ∧ t.adv = s.adv

/-- 40_cycle.md section 3, Fetch (the spec's decisions D4 and D15 for the two checks and their order): a misaligned IP
faults, and an aligned one whose word is not wholly in memory faults; only cur_ip and ctl change. -/
def Obligations.BadFetchAddressFaults : Prop :=
  ∀ s : State, s.ctl = .running .check → s.readReg .endr = 0 →
    ((s.readReg .ip).toNat % 4 ≠ 0 →
      step s = .next { s with
        curIp := s.readReg .ip, ctl := .faulted (.misalignedWordAccess (s.readReg .ip) 4 (s.readReg .ip)) }) ∧
    ((s.readReg .ip).toNat % 4 = 0 → s.memSize < (s.readReg .ip).toNat + 4 →
      step s = .next { s with
        curIp := s.readReg .ip, ctl := .faulted (.outOfBounds (s.readReg .ip) 4 (s.readReg .ip)) })

/-- 40_cycle.md section 3, Faulted (the spec's decision D13; log entry 4): a Faulted machine takes no further step;
the host gets the fault with its payload. -/
def Obligations.FaultedTakesNoStep : Prop :=
  ∀ (s : State) (f : Fault), s.ctl = .faulted f → step s = .fault f

/-- 60_exceptions.md section 1 and 40_cycle.md section 4 (log entries 4 and 11): Execute of every instruction answers
a next state from every state, and so does a step of every machine that is not Faulted: nothing else ever stops it. -/
def Obligations.OnlyFaultedStopsTheMachine : Prop :=
  (∀ (i : Instr) (s : State), ∃ t, exec i s = .next t) ∧
  ∀ s : State, (∀ f, s.ctl ≠ .faulted f) → ∃ t, step s = .next t

/-- 40_cycle.md section 2 and 70_reset_and_hazards.md section 1 (the host's duties are the spec's decision D27): in
Ready a step changes no state, and the host's execute() is accepted and moves ctl to Check with nothing else changed;
in every other state the call is not accepted, so no second call is before the run has returned. -/
def Obligations.ReadyAcceptsOneCall : Prop :=
  ∀ s : State,
    (s.ctl = .ready → step s = .next s ∧ s.callExecute = some { s with ctl := .running .check }) ∧
    (s.ctl ≠ .ready → s.callExecute = none) ∧
    ∀ t, s.callExecute = some t → t.callExecute = none

/-- 40_cycle.md section 4, waiting, and 44_io.md section 1 (log entry 9): while no line is available and the stream is
open a waiting IN or INNUM changes no state; once the stream is closed it raises InputExhausted; and in every case the
step is that of Execute resumed. -/
def Obligations.WaitingHoldsUntilTheHostActs : Prop :=
  ∀ (s : State) (r : Reg), s.ctl = .waitInput → (s.inst = .inp r ∨ s.inst = .innum r) →
    step s = step { s with ctl := .running .execute } ∧
    (s.inbuf = [] → s.lines = [] → s.closed = false → step s = .next s) ∧
    (s.inbuf = [] → s.lines = [] → s.closed = true →
      step s = .next { s with ctl := .faulted (.inputExhausted s.curIp) })

/-! ### Construction, reset, the host's input -/

/-- 70_reset_and_hazards.md R179 and R180: after construction memory is the image byte for byte, each register is its
image word read little-endian, and the entry point, latched in initial_ip, is the word at address 0. -/
def Obligations.ImageFixesTheLaunchState : Prop :=
  ∀ (image : List Byte) (s : State), State.construct image = some s →
    s.memSize = image.length ∧ (∀ k, k < image.length → s.mem.byte k = image.getD k 0) ∧
    (∀ r : Reg, (s.readReg r).toNat = (image.getD r.addr 0).toNat + (image.getD (r.addr + 1) 0).toNat * 2 ^ 8 +
      (image.getD (r.addr + 2) 0).toNat * 2 ^ 16 + (image.getD (r.addr + 3) 0).toNat * 2 ^ 24) ∧
    s.initialIp = s.readReg .ip

/-- 70_reset_and_hazards.md section 1 (the spec's decisions D3 and D22): exactly the images of 32 to 2^32 bytes are
accepted, and the constructed machine is Ready, has an empty input buffer and has emitted nothing, meets the
invariant, and changes no state of its own accord. -/
def Obligations.ConstructionGivesAReadyMachine : Prop :=
  ∀ image : List Byte,
    (State.construct image = none ↔ image.length < 32 ∨ 2 ^ 32 < image.length) ∧
    ∀ s, State.construct image = some s →
      s.inv ∧ s.ctl = .ready ∧ s.inbuf = [] ∧ s.output = [] ∧ step s = .next s

/-- The model's own choice (log entries 1, 2, 3, 8): State.reset, but for its N, is the construction from the image of
zero bytes. -/
def Obligations.ResetIsTheZeroImage : Prop :=
  ∀ n : Nat, 32 ≤ n → n ≤ 2 ^ 32 → State.construct (List.replicate n 0) = some { State.reset with memSize := n }

/-- The invariant holds at reset (log entry 1 for the reset values). -/
def Obligations.ResetMeetsTheInvariant : Prop :=
  State.reset.inv

/-- 44_io.md section 1, refill (the spec's decision D20; log entry 8): on an open stream, text without an LF and then
an LF is one more line, after what had arrived before it; closing turns unfinished data into a last line, and no data
into none. -/
def Obligations.LinesEndAtTheLineFeed : Prop :=
  ∀ (s : State) (l : List Char), s.closed = false → '\n' ∉ l →
    s.supplyLine l = { s with lines := s.lines ++ [s.tail ++ l], tail := [] } ∧
    (s.receiveText l).closeInput =
      { s with closed := true, tail := [], lines := if s.tail ++ l = [] then s.lines else s.lines ++ [s.tail ++ l] }

/-! ### Arithmetic -/

/-- 41_arithmetic.md R112: a word with opcode 0x01 is ADD of the registers in bytes 1, 2 and 3. The register of byte 3
gets the sum of the other two, both read before it is written, modulo 2^32; the instruction advances, no other
register, byte or flag changes, and nothing faults. -/
def Obligations.AddWrapsAndWritesOnlyItsDestination : Prop :=
  ∀ a b c : Reg,
    (∀ w : Word, w.extractLsb' 0 8 = 0x01 → w.extractLsb' 8 8 = a.code → w.extractLsb' 16 8 = b.code →
      w.extractLsb' 24 8 = c.code → decode w = .ok (.add a b c)) ∧
    ∀ s : State, s.wf → ∃ t, exec (.add a b c) s = .next t ∧ ended true t ∧
      onlyWrites s t c (BitVec.ofNat 32 (((s.readReg a).toNat + (s.readReg b).toNat) % 2 ^ 32))

/-- 41_arithmetic.md R113: a word with opcode 0x02 is SUB of the registers in bytes 1, 2 and 3. The register of byte 3
gets the first minus the second, both read before it is written, modulo 2^32; the instruction advances, no other
register, byte or flag changes, and nothing faults. -/
def Obligations.SubWrapsAndWritesOnlyItsDestination : Prop :=
  ∀ a b c : Reg,
    (∀ w : Word, w.extractLsb' 0 8 = 0x02 → w.extractLsb' 8 8 = a.code → w.extractLsb' 16 8 = b.code →
      w.extractLsb' 24 8 = c.code → decode w = .ok (.sub a b c)) ∧
    ∀ s : State, s.wf → ∃ t, exec (.sub a b c) s = .next t ∧ ended true t ∧
      onlyWrites s t c (BitVec.ofInt 32 (((s.readReg a).toNat - (s.readReg b).toNat : Int) % 2 ^ 32))

/-- 41_arithmetic.md R114: a word with opcode 0x03 is MUL of the registers in bytes 1, 2 and 3. The register of byte 3
gets the low 32 bits of the product of the other two, both read before it is written; the instruction advances, no
other register, byte or flag changes, and nothing faults. -/
def Obligations.MulKeepsTheLowHalfAndWritesOnlyItsDestination : Prop :=
  ∀ a b c : Reg,
    (∀ w : Word, w.extractLsb' 0 8 = 0x03 → w.extractLsb' 8 8 = a.code → w.extractLsb' 16 8 = b.code →
      w.extractLsb' 24 8 = c.code → decode w = .ok (.mul a b c)) ∧
    ∀ s : State, s.wf → ∃ t, exec (.mul a b c) s = .next t ∧ ended true t ∧
      onlyWrites s t c (BitVec.ofNat 32 (((s.readReg a).toNat * (s.readReg b).toNat) % 2 ^ 32))

/-- 41_arithmetic.md section on DIV (unsigned is the spec's decision D12): a zero divisor raises DivisionByZero and
changes nothing else; otherwise the destination, and nothing else, gets the truncated quotient. -/
def Obligations.DivTruncatesOrFaultsOnZero : Prop :=
  ∀ a b c : Reg,
    (∀ w : Word, w.extractLsb' 0 8 = 0x04 → w.extractLsb' 8 8 = a.code → w.extractLsb' 16 8 = b.code →
      w.extractLsb' 24 8 = c.code → decode w = .ok (.div a b c)) ∧
    ∀ s : State, s.wf →
      (s.readReg b = 0 → exec (.div a b c) s = .next { s with ctl := .faulted (.divisionByZero s.curIp) }) ∧
      (s.readReg b ≠ 0 → ∃ t, exec (.div a b c) s = .next t ∧ ended true t ∧
        onlyWrites s t c (BitVec.ofNat 32 ((s.readReg a).toNat / (s.readReg b).toNat)))

/-! ### Control transfer -/

/-- 42_control_transfer.md section on JMP (the wrap is the spec's decision D2): IP, and nothing else, becomes the
exact sum of IP and the signed offset modulo 2^32, with no advance and no check of the target. -/
def Obligations.JmpAddsItsOffsetToIp : Prop :=
  ∀ o : BitVec 16,
    (∀ w : Word, w.extractLsb' 0 8 = 0x05 → w.extractLsb' 8 16 = o → decode w = .ok (.jmp o)) ∧
    ∀ s : State, s.wf → ∃ t, exec (.jmp o) s = .next t ∧ ended false t ∧
      onlyWrites s t .ip (BitVec.ofInt 32 (((s.readReg .ip).toNat + o.toInt) % 2 ^ 32))

/-- 42_control_transfer.md section on JEQ (the wrap is the spec's decision D2): a word with opcode 0x0E is JEQ with
its offset in bytes 1 and 2. With CMP any non-zero value, IP, and nothing else, becomes IP plus the signed offset
modulo 2^32, with no advance; with CMP = 0 the instruction only advances. CMP is not written and nothing faults. -/
def Obligations.JeqJumpsWhenCmpIsNotZero : Prop :=
  ∀ o : BitVec 16,
    (∀ w : Word, w.extractLsb' 0 8 = 0x0E → w.extractLsb' 8 16 = o → decode w = .ok (.jeq o)) ∧
    ∀ s : State, s.wf →
      (s.readReg .cmp ≠ 0 → ∃ t, exec (.jeq o) s = .next t ∧ ended false t ∧
        onlyWrites s t .ip (BitVec.ofInt 32 (((s.readReg .ip).toNat + o.toInt) % 2 ^ 32))) ∧
      (s.readReg .cmp = 0 → exec (.jeq o) s = .next { s with adv := true, ctl := .running .advance })

/-- 42_control_transfer.md section on JNE (the wrap is the spec's decision D2): a word with opcode 0x0F is JNE with
its offset in bytes 1 and 2. With CMP = 0, IP, and nothing else, becomes IP plus the signed offset modulo 2^32, with
no advance; with CMP any other value the instruction only advances. CMP is not written and nothing faults. -/
def Obligations.JneJumpsWhenCmpIsZero : Prop :=
  ∀ o : BitVec 16,
    (∀ w : Word, w.extractLsb' 0 8 = 0x0F → w.extractLsb' 8 16 = o → decode w = .ok (.jne o)) ∧
    ∀ s : State, s.wf →
      (s.readReg .cmp = 0 → ∃ t, exec (.jne o) s = .next t ∧ ended false t ∧
        onlyWrites s t .ip (BitVec.ofInt 32 (((s.readReg .ip).toNat + o.toInt) % 2 ^ 32))) ∧
      (s.readReg .cmp ≠ 0 → exec (.jne o) s = .next { s with adv := true, ctl := .running .advance })

/-- 42_control_transfer.md section on CALL and 20_memory.md section 6 (the spec's decisions D2, D4 and D9): with SP
aligned and its word in memory, CALL's own address goes to the word at the old SP, SP is increased by 4 (from the
pushed value if the push wrote SP itself), IP becomes the target and does not advance; no other byte changes. A bad SP
faults with nothing changed. -/
def Obligations.CallPushesItsAddressAndJumps : Prop :=
  ∀ o : BitVec 16,
    (∀ w : Word, w.extractLsb' 0 8 = 0x17 → w.extractLsb' 8 16 = o → decode w = .ok (.call o)) ∧
    ∀ (s : State) (a v : Word), s.wf → s.readReg .sp = a → s.readReg .ip = v →
      (a.toNat % 4 = 0 → a.toNat + 4 ≤ s.memSize → ∃ t, exec (.call o) s = .next t ∧ ended false t ∧
        (a.toNat ≠ 0 → a.toNat ≠ 28 → t.mem.word a.toNat = v) ∧
        t.readReg .sp = (if a.toNat = 28 then v else a) + 4 ∧
        t.readReg .ip = BitVec.ofInt 32 ((v.toNat + o.toInt) % 2 ^ 32) ∧
        (∀ q : Reg, q ≠ .ip → q ≠ .sp → q.addr ≠ a.toNat → t.readReg q = s.readReg q) ∧
        (∀ x, 4 ≤ x → (x < 28 ∨ 32 ≤ x) → (x < a.toNat ∨ a.toNat + 4 ≤ x) → t.mem.byte x = s.mem.byte x) ∧
        sameLatches s t ∧ sameConsole s t) ∧
      (a.toNat % 4 ≠ 0 → exec (.call o) s = .next { s with ctl := .faulted (.misalignedWordAccess a 4 s.curIp) }) ∧
      (a.toNat % 4 = 0 → s.memSize < a.toNat + 4 →
        exec (.call o) s = .next { s with ctl := .faulted (.outOfBounds a 4 s.curIp) })

/-- 42_control_transfer.md section on RET (the spec's decisions D2 and D4): SP is decreased by 4 modulo 2^32; if the
word there is aligned and in memory, IP becomes that word (28 where the slot is SP's own word) and the instruction
advances; if not, the fault keeps the decrement and nothing else. -/
def Obligations.RetPopsIpAndAdvances : Prop :=
  (∀ w : Word, w.extractLsb' 0 8 = 0x18 → decode w = .ok .ret) ∧
  ∀ (s : State) (a : Word), s.wf → s.readReg .sp - 4 = a →
    (a.toNat % 4 = 0 → a.toNat + 4 ≤ s.memSize → ∃ t, exec .ret s = .next t ∧ ended true t ∧
      t.readReg .ip = (if a.toNat = 28 then 28 else s.mem.word a.toNat) ∧ t.readReg .sp = a ∧
      (∀ q : Reg, q ≠ .ip → q ≠ .sp → t.readReg q = s.readReg q) ∧
      (∀ x, 4 ≤ x → (x < 28 ∨ 32 ≤ x) → t.mem.byte x = s.mem.byte x) ∧ sameLatches s t ∧ sameConsole s t) ∧
    (a.toNat % 4 ≠ 0 → ∃ t, exec .ret s = .next t ∧ t.ctl = .faulted (.misalignedWordAccess a 4 s.curIp) ∧
      onlyWrites s t .sp a ∧ t.adv = s.adv) ∧
    (a.toNat % 4 = 0 → s.memSize < a.toNat + 4 → ∃ t, exec .ret s = .next t ∧
      t.ctl = .faulted (.outOfBounds a 4 s.curIp) ∧ onlyWrites s t .sp a ∧ t.adv = s.adv)

/-- 42_control_transfer.md section on FIN, and 40_cycle.md section 3 (the spec's decision D11 for the step after it):
FIN writes END = 1 and nothing else and does not advance; a run whose instruction at IP is FIN is over two steps
later, in Ready, with IP = initial_ip and END = 0. -/
def Obligations.FinEndsTheRun : Prop :=
  (∀ w : Word, w.extractLsb' 0 8 = 0x07 → decode w = .ok .fin) ∧
  (∀ s : State, s.wf → ∃ t, exec .fin s = .next t ∧ ended false t ∧ onlyWrites s t .endr 1) ∧
  ∀ s : State, s.wf → s.ctl = .running .check → s.readReg .endr = 0 → (s.readReg .ip).toNat % 4 = 0 →
    (s.readReg .ip).toNat + 4 ≤ s.memSize → decode (s.mem.word (s.readReg .ip).toNat) = .ok .fin →
    ∃ t u, step s = .next t ∧ t.readReg .ip = s.readReg .ip ∧ step t = .next u ∧ u.ctl = .ready ∧
      u.readReg .ip = s.initialIp ∧ u.readReg .endr = 0

/-- 42_control_transfer.md section on SKIP (unused bytes are ignored by the spec's decision D6): a word with opcode
0x11 is SKIP, whatever its other bytes; its only effect is the advance. -/
def Obligations.SkipOnlyAdvances : Prop :=
  (∀ w : Word, w.extractLsb' 0 8 = 0x11 → decode w = .ok .skip) ∧
  ∀ s : State, exec .skip s = .next { s with adv := true, ctl := .running .advance }

/-! ### Load and move -/

/-- 43_load_move.md section on LD (the wrap is the spec's decision D2): a word with opcode 0x06 is LD of the register
in byte 1 with its offset in bytes 2 and 3. With `ea` the sum of IP and the signed offset modulo 2^32: in memory, at
any alignment, its byte zero-extended goes to the register and nothing else changes; outside memory, OutOfBounds(ea,
1) is raised and no register is written. -/
def Obligations.LdLoadsTheByteAtIpPlusOffset : Prop :=
  ∀ (r : Reg) (o : BitVec 16),
    (∀ w : Word, w.extractLsb' 0 8 = 0x06 → w.extractLsb' 8 8 = r.code → w.extractLsb' 16 16 = o →
      decode w = .ok (.ld r o)) ∧
    ∀ (s : State) (ea : Word), s.wf → (ea.toNat : Int) = ((s.readReg .ip).toNat + o.toInt) % 2 ^ 32 →
      (ea.toNat < s.memSize → ∃ t, exec (.ld r o) s = .next t ∧ ended true t ∧
        onlyWrites s t r (BitVec.ofNat 32 (s.mem.byte ea.toNat).toNat)) ∧
      (s.memSize ≤ ea.toNat → exec (.ld r o) s = .next { s with ctl := .faulted (.outOfBounds ea 1 s.curIp) })

/-- 43_load_move.md R126: a word with opcode 0x0C is LDABS of the register in byte 1 with its immediate in bytes 2 and
3. The register gets the immediate zero-extended; the instruction advances, nothing else changes and nothing
faults. -/
def Obligations.LdabsLoadsItsImmediate : Prop :=
  ∀ (r : Reg) (v : BitVec 16),
    (∀ w : Word, w.extractLsb' 0 8 = 0x0C → w.extractLsb' 8 8 = r.code → w.extractLsb' 16 16 = v →
      decode w = .ok (.ldabs r v)) ∧
    ∀ s : State, s.wf → ∃ t, exec (.ldabs r v) s = .next t ∧ ended true t ∧
      onlyWrites s t r (BitVec.ofNat 32 v.toNat)

/-- 43_load_move.md section on MOV (register operands are the spec's decision D7): a word with opcode 0x13 is MOV from
the register in byte 1 to the one in byte 2. The destination gets the source's value; the instruction advances,
nothing else changes and nothing faults. -/
def Obligations.MovCopiesSourceToDestination : Prop :=
  ∀ a b : Reg,
    (∀ w : Word, w.extractLsb' 0 8 = 0x13 → w.extractLsb' 8 8 = a.code → w.extractLsb' 16 8 = b.code →
      decode w = .ok (.mov a b)) ∧
    ∀ s : State, s.wf → ∃ t, exec (.mov a b) s = .next t ∧ ended true t ∧ onlyWrites s t b (s.readReg a)

/-! ### Compare -/

/-- 45_compare.md section on EQ (register operands are the spec's decision D7): a word with opcode 0x09 is EQ of the
registers in bytes 1 and 2. CMP becomes 1 if their values are equal and 0 if not; the instruction advances, nothing
else changes and nothing faults. -/
def Obligations.EqWritesOnlyCmp : Prop :=
  ∀ a b : Reg,
    (∀ w : Word, w.extractLsb' 0 8 = 0x09 → w.extractLsb' 8 8 = a.code → w.extractLsb' 16 8 = b.code →
      decode w = .ok (.eq a b)) ∧
    ∀ s : State, s.wf → ∃ t, exec (.eq a b) s = .next t ∧ ended true t ∧
      onlyWrites s t .cmp (if (s.readReg a).toNat = (s.readReg b).toNat then 1 else 0)

/-- 45_compare.md section on LT (register operands are the spec's decision D7): a word with opcode 0x0A is LT of the
registers in bytes 1 and 2. CMP becomes 1 if the first value is below the second, both unsigned, and 0 if not; the
instruction advances, nothing else changes and nothing faults. -/
def Obligations.LtWritesOnlyCmp : Prop :=
  ∀ a b : Reg,
    (∀ w : Word, w.extractLsb' 0 8 = 0x0A → w.extractLsb' 8 8 = a.code → w.extractLsb' 16 8 = b.code →
      decode w = .ok (.lt a b)) ∧
    ∀ s : State, s.wf → ∃ t, exec (.lt a b) s = .next t ∧ ended true t ∧
      onlyWrites s t .cmp (if (s.readReg a).toNat < (s.readReg b).toNat then 1 else 0)

/-- 45_compare.md section on LE (register operands are the spec's decision D7): a word with opcode 0x0B is LE of the
registers in bytes 1 and 2. CMP becomes 1 if the first value is at most the second, both unsigned, and 0 if not; the
instruction advances, nothing else changes and nothing faults. -/
def Obligations.LeWritesOnlyCmp : Prop :=
  ∀ a b : Reg,
    (∀ w : Word, w.extractLsb' 0 8 = 0x0B → w.extractLsb' 8 8 = a.code → w.extractLsb' 16 8 = b.code →
      decode w = .ok (.le a b)) ∧
    ∀ s : State, s.wf → ∃ t, exec (.le a b) s = .next t ∧ ended true t ∧
      onlyWrites s t .cmp (if (s.readReg a).toNat ≤ (s.readReg b).toNat then 1 else 0)

/-! ### Stack -/

/-- 46_stack.md section on PUSH and 20_memory.md section 6 (the spec's decisions D2, D4 and D9): with SP aligned and
its word in memory, the register's value goes to the word at the old SP and SP is increased by 4 (from the pushed
value if the push wrote SP itself); no other byte changes. A bad SP faults with nothing changed. -/
def Obligations.PushStoresAtSpAndIncrements : Prop :=
  ∀ r : Reg,
    (∀ w : Word, w.extractLsb' 0 8 = 0x15 → w.extractLsb' 8 8 = r.code → decode w = .ok (.push r)) ∧
    ∀ (s : State) (a v : Word), s.wf → s.readReg .sp = a → s.readReg r = v →
      (a.toNat % 4 = 0 → a.toNat + 4 ≤ s.memSize → ∃ t, exec (.push r) s = .next t ∧ ended true t ∧
        (a.toNat ≠ 28 → t.mem.word a.toNat = v) ∧
        t.readReg .sp = (if a.toNat = 28 then v else a) + 4 ∧
        (∀ q : Reg, q ≠ .sp → t.readReg q = if q.addr = a.toNat then v else s.readReg q) ∧
        (∀ x, (x < 28 ∨ 32 ≤ x) → (x < a.toNat ∨ a.toNat + 4 ≤ x) → t.mem.byte x = s.mem.byte x) ∧
        sameLatches s t ∧ sameConsole s t) ∧
      (a.toNat % 4 ≠ 0 → exec (.push r) s = .next { s with ctl := .faulted (.misalignedWordAccess a 4 s.curIp) }) ∧
      (a.toNat % 4 = 0 → s.memSize < a.toNat + 4 →
        exec (.push r) s = .next { s with ctl := .faulted (.outOfBounds a 4 s.curIp) })

/-- 46_stack.md section on POP (the spec's decisions D2 and D4): a word with opcode 0x16 is POP of the register in
byte 1. SP is decreased by 4 modulo 2^32; if the word there is aligned and in memory the register gets it (28 where
the slot is SP's own word), SP keeps the decremented value unless it is that register, and the instruction advances;
if not, the fault keeps the decrement and the register is unchanged. -/
def Obligations.PopDecrementsAndLoads : Prop :=
  ∀ r : Reg,
    (∀ w : Word, w.extractLsb' 0 8 = 0x16 → w.extractLsb' 8 8 = r.code → decode w = .ok (.pop r)) ∧
    ∀ (s : State) (a : Word), s.wf → s.readReg .sp - 4 = a →
      (a.toNat % 4 = 0 → a.toNat + 4 ≤ s.memSize → ∃ t, exec (.pop r) s = .next t ∧ ended true t ∧
        t.readReg r = (if a.toNat = 28 then 28 else s.mem.word a.toNat) ∧ (r ≠ .sp → t.readReg .sp = a) ∧
        (∀ q : Reg, q ≠ r → q ≠ .sp → t.readReg q = s.readReg q) ∧
        (∀ x, (x < 28 ∨ 32 ≤ x) → (x < r.addr ∨ r.addr + 4 ≤ x) → t.mem.byte x = s.mem.byte x) ∧
        sameLatches s t ∧ sameConsole s t) ∧
      (a.toNat % 4 ≠ 0 → ∃ t, exec (.pop r) s = .next t ∧ t.ctl = .faulted (.misalignedWordAccess a 4 s.curIp) ∧
        onlyWrites s t .sp a ∧ t.adv = s.adv) ∧
      (a.toNat % 4 = 0 → s.memSize < a.toNat + 4 → ∃ t, exec (.pop r) s = .next t ∧
        t.ctl = .faulted (.outOfBounds a 4 s.curIp) ∧ onlyWrites s t .sp a ∧ t.adv = s.adv)

/-- 46_stack.md section on the stack laws (a law the spec derives): after PUSH r with the pushed word outside the
register file, POP q from any well-formed machine of the same size whose SP is the one PUSH left and whose slot still
holds the pushed word gives q the old value of r, and SP its old value where q is not SP. The machine that PUSH's own
Advance leaves is such a machine. -/
def Obligations.PushThenPopGivesTheValueBack : Prop :=
  ∀ (s t : State) (r : Reg), s.wf → (s.readReg .sp).toNat % 4 = 0 → 32 ≤ (s.readReg .sp).toNat →
    (s.readReg .sp).toNat + 4 ≤ s.memSize → exec (.push r) s = .next t →
    (∀ (u : State) (q : Reg), u.wf → u.memSize = t.memSize → u.readReg .sp = t.readReg .sp →
      u.mem.word (s.readReg .sp).toNat = t.mem.word (s.readReg .sp).toNat →
      ∃ v, exec (.pop q) u = .next v ∧ ended true v ∧ v.readReg q = s.readReg r ∧
        (q ≠ .sp → v.readReg .sp = s.readReg .sp)) ∧
    (advanceStage t).wf ∧ (advanceStage t).memSize = t.memSize ∧ (advanceStage t).readReg .sp = t.readReg .sp ∧
      (advanceStage t).mem.word (s.readReg .sp).toNat = t.mem.word (s.readReg .sp).toNat

/-- 42_control_transfer.md section on RET, the call/return law (the spec's decisions D2 and D10): after a CALL whose
slot is outside the register file, RET from any well-formed machine of the same size whose SP is the one CALL left and
whose slot still holds CALL's address, once advanced, continues at CALL's address + 4. -/
def Obligations.CallThenRetResumesAfterTheCall : Prop :=
  ∀ (s t u : State) (o : BitVec 16), s.wf → 32 ≤ (s.readReg .sp).toNat → (s.readReg .sp).toNat % 4 = 0 →
    (s.readReg .sp).toNat + 4 ≤ s.memSize → exec (.call o) s = .next t →
    u.wf → u.memSize = t.memSize → u.readReg .sp = t.readReg .sp →
    u.mem.word (s.readReg .sp).toNat = t.mem.word (s.readReg .sp).toNat →
    ∃ v, exec .ret u = .next v ∧ ended true v ∧ v.readReg .sp = s.readReg .sp ∧
      (advanceStage v).readReg .ip = s.readReg .ip + 4

/-! ### Console -/

/-- 44_io.md section on OUT (the spec's decisions D2 and D16): from x[reg] on, addresses modulo 2^32, stand the
non-zero bytes `str` in memory. If a zero byte follows them, OUT emits one character per byte, in order, and nothing
else changes; if the next address is outside memory, the fault comes after the same characters. -/
def Obligations.OutEmitsTheString : Prop :=
  ∀ r : Reg,
    (∀ w : Word, w.extractLsb' 0 8 = 0x08 → w.extractLsb' 8 8 = r.code → decode w = .ok (.out r)) ∧
    ∀ (s : State) (str : List Byte) (e : Word), str.length < 2 ^ 32 →
      (∀ k, k < str.length → ((s.readReg r).toNat + k) % 2 ^ 32 < s.memSize ∧
        s.mem.byte (((s.readReg r).toNat + k) % 2 ^ 32) = str.getD k 0 ∧ str.getD k 0 ≠ 0) →
      e.toNat = ((s.readReg r).toNat + str.length) % 2 ^ 32 →
      (e.toNat < s.memSize → s.mem.byte e.toNat = 0 → exec (.out r) s =
        .next { s with
          output := s.output ++ str.map (fun b => Char.ofNat b.toNat), adv := true, ctl := .running .advance }) ∧
      (s.memSize ≤ e.toNat → exec (.out r) s =
        .next { s with
          output := s.output ++ str.map (fun b => Char.ofNat b.toNat), ctl := .faulted (.outOfBounds e 1 s.curIp) })

/-- 44_io.md section on OUT, the loop that never ends (log entry 11; the wrap and the characters are the spec's
decisions D2 and D16): with every one of the 2^32 addresses in memory and non-zero, a step of OUT emits the characters
of the 2^32 bytes from x[reg] on, addresses modulo 2^32, in order, changes nothing else, and Execute goes on. -/
def Obligations.EndlessOutGoesOn : Prop :=
  ∀ (s : State) (r : Reg), (∀ a, a < 2 ^ 32 → a < s.memSize ∧ s.mem.byte a ≠ 0) →
    exec (.out r) s = .next { s with
      output := s.output ++ (List.range (2 ^ 32)).map
        (fun k => Char.ofNat (s.mem.byte (((s.readReg r).toNat + k) % 2 ^ 32)).toNat),
      ctl := .running .execute }

/-- 44_io.md section on IN (the spec's decisions D21 and D31): with a buffered character, or a line with one after any
empty lines, IN writes its code point to the register and removes it from the buffer; no line is read if the buffer
was not empty. -/
def Obligations.InReadsOneCharacter : Prop :=
  ∀ r : Reg,
    (∀ w : Word, w.extractLsb' 0 8 = 0x0D → w.extractLsb' 8 8 = r.code → decode w = .ok (.inp r)) ∧
    ∀ (s : State) (c : Char) (rest : List Char) (ls : List (List Char)), s.wf →
      ((s.inbuf = c :: rest ∧ s.lines = ls) ∨
        (s.inbuf = [] ∧ ∃ n, s.lines = List.replicate n [] ++ (c :: rest) :: ls)) →
      ∃ t, exec (.inp r) s = .next t ∧ ended true t ∧ t.readReg r = BitVec.ofNat 32 c.toNat ∧ sameRegsBut r s t ∧
        sameBytesBut r.addr 4 s t ∧ sameLatches s t ∧ t.inbuf = rest ∧ t.lines = ls ∧ t.tail = s.tail ∧
        t.closed = s.closed ∧ t.output = s.output

/-- 44_io.md section on INNUM (the spec's decisions D19 and D21): the text is the buffer, or the next line if the
buffer is empty. A text of ASCII digits of value below 2^32 goes to the register and the buffer is empty; any other
text raises MalformedNumericInput with the buffer empty and no register written. -/
def Obligations.InnumReadsTheBufferedNumber : Prop :=
  ∀ r : Reg,
    (∀ w : Word, w.extractLsb' 0 8 = 0x14 → w.extractLsb' 8 8 = r.code → decode w = .ok (.innum r)) ∧
    ∀ (s : State) (text : List Char) (ls : List (List Char)) (n : Nat), s.wf →
      ((s.inbuf = text ∧ text ≠ [] ∧ s.lines = ls) ∨ (s.inbuf = [] ∧ s.lines = text :: ls)) →
      n = text.foldl (fun m c => 10 * m + (c.toNat - 0x30)) 0 →
      ((text ≠ [] ∧ (∀ c ∈ text, 0x30 ≤ c.toNat ∧ c.toNat ≤ 0x39) ∧ n < 2 ^ 32) →
        ∃ t, exec (.innum r) s = .next t ∧ ended true t ∧ t.readReg r = BitVec.ofNat 32 n ∧ sameRegsBut r s t ∧
          sameBytesBut r.addr 4 s t ∧ sameLatches s t ∧ t.inbuf = [] ∧ t.lines = ls ∧ t.tail = s.tail ∧
          t.closed = s.closed ∧ t.output = s.output) ∧
      (¬(text ≠ [] ∧ (∀ c ∈ text, 0x30 ≤ c.toNat ∧ c.toNat ≤ 0x39) ∧ n < 2 ^ 32) →
        exec (.innum r) s =
          .next { s with inbuf := [], lines := ls, ctl := .faulted (.malformedNumericInput s.curIp) })

/-- 44_io.md section 1, blocking and end of input (the spec's decision D21; log entry 9): with an empty buffer and no
line to read (for IN, none but empty ones, which it consumes), an input instruction raises InputExhausted if the
stream is closed and waits if it is open; no register changes. -/
def Obligations.InputWithoutALineWaitsOrFaults : Prop :=
  ∀ (s : State) (r : Reg), s.inbuf = [] →
    (∀ n, s.lines = List.replicate n [] →
      (s.closed = true →
        exec (.inp r) s = .next { s with lines := [], ctl := .faulted (.inputExhausted s.curIp) }) ∧
      (s.closed = false → exec (.inp r) s = .next { s with lines := [], ctl := .waitInput })) ∧
    (s.lines = [] →
      (s.closed = true → exec (.innum r) s = .next { s with ctl := .faulted (.inputExhausted s.curIp) }) ∧
      (s.closed = false → exec (.innum r) s = .next { s with ctl := .waitInput }))

/-- 44_io.md section on OUTR (the spec's decision D17; the scalar values are log entry 14): a Unicode scalar value is
emitted and nothing else changes; any other value raises InvalidCharacter and emits nothing. -/
def Obligations.OutrEmitsOneScalarValue : Prop :=
  ∀ r : Reg,
    (∀ w : Word, w.extractLsb' 0 8 = 0x10 → w.extractLsb' 8 8 = r.code → decode w = .ok (.outr r)) ∧
    ∀ (s : State) (v : Word), s.readReg r = v →
      ((v.toNat < 0xD800 ∨ (0xDFFF < v.toNat ∧ v.toNat ≤ 0x10FFFF)) → ∃ c : Char, c.toNat = v.toNat ∧
        exec (.outr r) s = .next { s with output := s.output ++ [c], adv := true, ctl := .running .advance }) ∧
      (0x10FFFF < v.toNat ∨ (0xD800 ≤ v.toNat ∧ v.toNat ≤ 0xDFFF) →
        exec (.outr r) s = .next { s with ctl := .faulted (.invalidCharacter v s.curIp) })

/-- 44_io.md section on OUTNUM (the spec's decision D18): the register's value is emitted as its digits, most
significant first, with no leading zero unless it is the one digit 0, and nothing else changes. -/
def Obligations.OutnumEmitsTheDecimalDigits : Prop :=
  ∀ r : Reg,
    (∀ w : Word, w.extractLsb' 0 8 = 0x12 → w.extractLsb' 8 8 = r.code → decode w = .ok (.outnum r)) ∧
    ∀ s : State, ∃ ds : List Char, ds ≠ [] ∧ (∀ c ∈ ds, 0x30 ≤ c.toNat ∧ c.toNat ≤ 0x39) ∧
      ds.foldl (fun m c => 10 * m + (c.toNat - 0x30)) 0 = (s.readReg r).toNat ∧
      (ds.head? = some '0' → ds.length = 1) ∧
      exec (.outnum r) s = .next { s with output := s.output ++ ds, adv := true, ctl := .running .advance }

/-- 44_io.md sections on OUTNUM and INNUM (the spec's decisions D18 and D19): INNUM's parse reads back what OUTNUM
prints. -/
def Obligations.PrintedNumbersParseBack : Prop :=
  ∀ v : Word, parseDecimal (decimal v) = some v

/-! ### The whole machine -/

/-- The invariant of Safety.lean (20_memory.md section 1, 60_exceptions.md section 1, 40_cycle.md section 4, 44_io.md
section 1): every step and every move of the host from every state that meets it gives a state that meets it. -/
def Obligations.StepKeepsTheInvariant : Prop :=
  ∀ s t : State, s.inv → (step s = .next t ∨ HostMove s t) → t.inv

/-- 60_exceptions.md section 5 (the spec's decision D27): no move of the host changes memory, a latch, inbuf or what
was emitted; an input move, a whole line and a whole text included, leaves ctl too, and keeps the invariant. -/
def Obligations.HostMovesLeaveMemoryAsItWas : Prop :=
  (∀ s t : State, HostMove s t →
    t.mem = s.mem ∧ sameLatches s t ∧ t.adv = s.adv ∧ t.inbuf = s.inbuf ∧ t.output = s.output) ∧
  ∀ (s t : State) (cs : List Char), (t = s.receiveText cs ∨ t = s.supplyLine cs ∨ t = s.closeInput) →
    t.mem = s.mem ∧ sameLatches s t ∧ t.adv = s.adv ∧ t.inbuf = s.inbuf ∧ t.output = s.output ∧ t.ctl = s.ctl ∧
      (s.inv → t.inv)

/-- 44_io.md section 3 (a statement the spec derives): an instruction other than the five I/O opcodes neither emits
nor reads nor waits. -/
def Obligations.OnlyIoInstructionsTouchTheConsole : Prop :=
  ∀ (i : Instr) (s t : State), exec i s = .next t →
    (∀ r, i ≠ .out r ∧ i ≠ .inp r ∧ i ≠ .outr r ∧ i ≠ .outnum r ∧ i ≠ .innum r) →
    sameConsole s t ∧ t.ctl ≠ .waitInput

/-- 20_memory.md section 4 (a statement the spec derives): an instruction other than PUSH and CALL writes no byte
outside the register file. -/
def Obligations.OnlyPushAndCallStoreOutsideTheRegisters : Prop :=
  ∀ (i : Instr) (s t : State), s.wf → exec i s = .next t → (∀ r, i ≠ .push r) → (∀ o, i ≠ .call o) →
    ∀ a, 32 ≤ a → t.mem.byte a = s.mem.byte a

/-- 60_exceptions.md section 1, the matrix of execute faults (a table the spec derives): which instruction can raise
which fault in Execute, by the fault's code. -/
def Obligations.ExecuteFaultsAreThoseOfTheTable : Prop :=
  ∀ (i : Instr) (s t : State) (f : Fault), exec i s = .next t → t.ctl = .faulted f →
    f.code ∈ (match i with
      | .add _ _ _ | .sub _ _ _ | .mul _ _ _ | .eq _ _ | .lt _ _ | .le _ _ | .ldabs _ _ | .mov _ _
      | .jmp _ | .jeq _ | .jne _ | .fin | .skip | .outnum _ => []
      | .div _ _ _ => [4]
      | .ld _ _ | .out _ => [3]
      | .outr _ => [8]
      | .inp _ => [6]
      | .innum _ => [5, 6]
      | .push _ | .pop _ | .call _ | .ret => [2, 3] : List Nat)

/-- 10_state.md section 4 and 20_memory.md section 1: no step changes N or initial_ip, and output only grows. -/
def Obligations.StepKeepsSizeAndEntryPoint : Prop :=
  ∀ s t : State, step s = .next t →
    t.memSize = s.memSize ∧ t.initialIp = s.initialIp ∧ ∃ cs, t.output = s.output ++ cs

/-- 40_cycle.md section 5, restart (the spec's decisions D11 and D29): a run that ends leaves the machine Ready, and
the host's next execute() begins again at initial_ip with END = 0; every byte outside IP and END is what the run
left. -/
def Obligations.RestartBeginsAtTheEntryPoint : Prop :=
  ∀ s : State, s.wf → s.ctl = .running .check → s.readReg .endr ≠ 0 →
    ∃ t u, step s = .next t ∧ t.ctl = .ready ∧ t.callExecute = some u ∧ u.ctl = .running .check ∧
      u.readReg .ip = s.initialIp ∧ u.readReg .endr = 0 ∧
      (∀ a, 4 ≤ a → (a < 24 ∨ 28 ≤ a) → u.mem.byte a = s.mem.byte a) ∧ sameConsole s u
end

