-- ==== Sys2Proof/Laws/State.lean ====
section
/-! SUPPORT. Every field of State after every update, so that no proof unfolds a record update. A register read sees
memory alone, so it passes through an update that does not write memory. -/

namespace Sys2Proof.Machine

/-! Fault entry (60_exceptions.md R156). -/

@[simp] theorem raise_mem (f : Fault) (s : State) : (raise f s).mem = s.mem := rfl
@[simp] theorem raise_memSize (f : Fault) (s : State) : (raise f s).memSize = s.memSize := rfl
@[simp] theorem raise_ctl (f : Fault) (s : State) : (raise f s).ctl = .faulted f := rfl
@[simp] theorem raise_initialIp (f : Fault) (s : State) : (raise f s).initialIp = s.initialIp := rfl
@[simp] theorem raise_curIp (f : Fault) (s : State) : (raise f s).curIp = s.curIp := rfl
@[simp] theorem raise_fetched (f : Fault) (s : State) : (raise f s).fetched = s.fetched := rfl
@[simp] theorem raise_inst (f : Fault) (s : State) : (raise f s).inst = s.inst := rfl
@[simp] theorem raise_adv (f : Fault) (s : State) : (raise f s).adv = s.adv := rfl
@[simp] theorem raise_inbuf (f : Fault) (s : State) : (raise f s).inbuf = s.inbuf := rfl
@[simp] theorem raise_lines (f : Fault) (s : State) : (raise f s).lines = s.lines := rfl
@[simp] theorem raise_tail (f : Fault) (s : State) : (raise f s).tail = s.tail := rfl
@[simp] theorem raise_closed (f : Fault) (s : State) : (raise f s).closed = s.closed := rfl
@[simp] theorem raise_output (f : Fault) (s : State) : (raise f s).output = s.output := rfl
@[simp] theorem raise_readReg (f : Fault) (s : State) (q : Reg) : (raise f s).readReg q = s.readReg q := rfl

/-! The end of Execute (40_cycle.md R101, R102). -/

@[simp] theorem endExecute_mem (adv : Bool) (s : State) : (endExecute adv s).mem = s.mem := rfl
@[simp] theorem endExecute_memSize (adv : Bool) (s : State) : (endExecute adv s).memSize = s.memSize := rfl
@[simp] theorem endExecute_ctl (adv : Bool) (s : State) : (endExecute adv s).ctl = .running .advance := rfl
@[simp] theorem endExecute_initialIp (adv : Bool) (s : State) : (endExecute adv s).initialIp = s.initialIp := rfl
@[simp] theorem endExecute_curIp (adv : Bool) (s : State) : (endExecute adv s).curIp = s.curIp := rfl
@[simp] theorem endExecute_fetched (adv : Bool) (s : State) : (endExecute adv s).fetched = s.fetched := rfl
@[simp] theorem endExecute_inst (adv : Bool) (s : State) : (endExecute adv s).inst = s.inst := rfl
@[simp] theorem endExecute_adv (adv : Bool) (s : State) : (endExecute adv s).adv = adv := rfl
@[simp] theorem endExecute_inbuf (adv : Bool) (s : State) : (endExecute adv s).inbuf = s.inbuf := rfl
@[simp] theorem endExecute_lines (adv : Bool) (s : State) : (endExecute adv s).lines = s.lines := rfl
@[simp] theorem endExecute_tail (adv : Bool) (s : State) : (endExecute adv s).tail = s.tail := rfl
@[simp] theorem endExecute_closed (adv : Bool) (s : State) : (endExecute adv s).closed = s.closed := rfl
@[simp] theorem endExecute_output (adv : Bool) (s : State) : (endExecute adv s).output = s.output := rfl
@[simp] theorem endExecute_readReg (adv : Bool) (s : State) (q : Reg) : (endExecute adv s).readReg q = s.readReg q := rfl

/-! WaitInput (40_cycle.md R107). -/

@[simp] theorem waiting_mem (s : State) : (waiting s).mem = s.mem := rfl
@[simp] theorem waiting_memSize (s : State) : (waiting s).memSize = s.memSize := rfl
@[simp] theorem waiting_ctl (s : State) : (waiting s).ctl = .waitInput := rfl
@[simp] theorem waiting_initialIp (s : State) : (waiting s).initialIp = s.initialIp := rfl
@[simp] theorem waiting_curIp (s : State) : (waiting s).curIp = s.curIp := rfl
@[simp] theorem waiting_fetched (s : State) : (waiting s).fetched = s.fetched := rfl
@[simp] theorem waiting_inst (s : State) : (waiting s).inst = s.inst := rfl
@[simp] theorem waiting_adv (s : State) : (waiting s).adv = s.adv := rfl
@[simp] theorem waiting_inbuf (s : State) : (waiting s).inbuf = s.inbuf := rfl
@[simp] theorem waiting_lines (s : State) : (waiting s).lines = s.lines := rfl
@[simp] theorem waiting_tail (s : State) : (waiting s).tail = s.tail := rfl
@[simp] theorem waiting_closed (s : State) : (waiting s).closed = s.closed := rfl
@[simp] theorem waiting_output (s : State) : (waiting s).output = s.output := rfl
@[simp] theorem waiting_readReg (s : State) (q : Reg) : (waiting s).readReg q = s.readReg q := rfl

/-! A register write (20_memory.md R58). -/

@[simp] theorem State.writeReg_mem (s : State) (r : Reg) (v : Word) : (s.writeReg r v).mem = s.mem.putWord r.addr v := rfl
@[simp] theorem State.writeReg_memSize (s : State) (r : Reg) (v : Word) : (s.writeReg r v).memSize = s.memSize := rfl
@[simp] theorem State.writeReg_ctl (s : State) (r : Reg) (v : Word) : (s.writeReg r v).ctl = s.ctl := rfl
@[simp] theorem State.writeReg_initialIp (s : State) (r : Reg) (v : Word) : (s.writeReg r v).initialIp = s.initialIp := rfl
@[simp] theorem State.writeReg_curIp (s : State) (r : Reg) (v : Word) : (s.writeReg r v).curIp = s.curIp := rfl
@[simp] theorem State.writeReg_fetched (s : State) (r : Reg) (v : Word) : (s.writeReg r v).fetched = s.fetched := rfl
@[simp] theorem State.writeReg_inst (s : State) (r : Reg) (v : Word) : (s.writeReg r v).inst = s.inst := rfl
@[simp] theorem State.writeReg_adv (s : State) (r : Reg) (v : Word) : (s.writeReg r v).adv = s.adv := rfl
@[simp] theorem State.writeReg_inbuf (s : State) (r : Reg) (v : Word) : (s.writeReg r v).inbuf = s.inbuf := rfl
@[simp] theorem State.writeReg_lines (s : State) (r : Reg) (v : Word) : (s.writeReg r v).lines = s.lines := rfl
@[simp] theorem State.writeReg_tail (s : State) (r : Reg) (v : Word) : (s.writeReg r v).tail = s.tail := rfl
@[simp] theorem State.writeReg_closed (s : State) (r : Reg) (v : Word) : (s.writeReg r v).closed = s.closed := rfl
@[simp] theorem State.writeReg_output (s : State) (r : Reg) (v : Word) : (s.writeReg r v).output = s.output := rfl

/-! The write of a comparison (45_compare.md R147). -/

@[simp] theorem setCmp_mem (s : State) (b : Bool) : (setCmp s b).mem = s.mem.putWord 20 (flagWord b) := rfl
@[simp] theorem setCmp_memSize (s : State) (b : Bool) : (setCmp s b).memSize = s.memSize := rfl
@[simp] theorem setCmp_ctl (s : State) (b : Bool) : (setCmp s b).ctl = s.ctl := rfl
@[simp] theorem setCmp_initialIp (s : State) (b : Bool) : (setCmp s b).initialIp = s.initialIp := rfl
@[simp] theorem setCmp_curIp (s : State) (b : Bool) : (setCmp s b).curIp = s.curIp := rfl
@[simp] theorem setCmp_fetched (s : State) (b : Bool) : (setCmp s b).fetched = s.fetched := rfl
@[simp] theorem setCmp_inst (s : State) (b : Bool) : (setCmp s b).inst = s.inst := rfl
@[simp] theorem setCmp_adv (s : State) (b : Bool) : (setCmp s b).adv = s.adv := rfl
@[simp] theorem setCmp_inbuf (s : State) (b : Bool) : (setCmp s b).inbuf = s.inbuf := rfl
@[simp] theorem setCmp_lines (s : State) (b : Bool) : (setCmp s b).lines = s.lines := rfl
@[simp] theorem setCmp_tail (s : State) (b : Bool) : (setCmp s b).tail = s.tail := rfl
@[simp] theorem setCmp_closed (s : State) (b : Bool) : (setCmp s b).closed = s.closed := rfl
@[simp] theorem setCmp_output (s : State) (b : Bool) : (setCmp s b).output = s.output := rfl

/-! The write of a control transfer (10_state.md R26). -/

@[simp] theorem jumpTo_mem (s : State) (o : BitVec 16) : (jumpTo s o).mem = s.mem.putWord 0 (ipRelative s o) := rfl
@[simp] theorem jumpTo_memSize (s : State) (o : BitVec 16) : (jumpTo s o).memSize = s.memSize := rfl
@[simp] theorem jumpTo_ctl (s : State) (o : BitVec 16) : (jumpTo s o).ctl = s.ctl := rfl
@[simp] theorem jumpTo_initialIp (s : State) (o : BitVec 16) : (jumpTo s o).initialIp = s.initialIp := rfl
@[simp] theorem jumpTo_curIp (s : State) (o : BitVec 16) : (jumpTo s o).curIp = s.curIp := rfl
@[simp] theorem jumpTo_fetched (s : State) (o : BitVec 16) : (jumpTo s o).fetched = s.fetched := rfl
@[simp] theorem jumpTo_inst (s : State) (o : BitVec 16) : (jumpTo s o).inst = s.inst := rfl
@[simp] theorem jumpTo_adv (s : State) (o : BitVec 16) : (jumpTo s o).adv = s.adv := rfl
@[simp] theorem jumpTo_inbuf (s : State) (o : BitVec 16) : (jumpTo s o).inbuf = s.inbuf := rfl
@[simp] theorem jumpTo_lines (s : State) (o : BitVec 16) : (jumpTo s o).lines = s.lines := rfl
@[simp] theorem jumpTo_tail (s : State) (o : BitVec 16) : (jumpTo s o).tail = s.tail := rfl
@[simp] theorem jumpTo_closed (s : State) (o : BitVec 16) : (jumpTo s o).closed = s.closed := rfl
@[simp] theorem jumpTo_output (s : State) (o : BitVec 16) : (jumpTo s o).output = s.output := rfl

/-! The decrement of a pop (20_memory.md R61). -/

@[simp] theorem dropSlot_mem (s : State) : (dropSlot s).mem = s.mem.putWord 28 (s.readReg .sp - 4) := rfl
@[simp] theorem dropSlot_memSize (s : State) : (dropSlot s).memSize = s.memSize := rfl
@[simp] theorem dropSlot_ctl (s : State) : (dropSlot s).ctl = s.ctl := rfl
@[simp] theorem dropSlot_initialIp (s : State) : (dropSlot s).initialIp = s.initialIp := rfl
@[simp] theorem dropSlot_curIp (s : State) : (dropSlot s).curIp = s.curIp := rfl
@[simp] theorem dropSlot_fetched (s : State) : (dropSlot s).fetched = s.fetched := rfl
@[simp] theorem dropSlot_inst (s : State) : (dropSlot s).inst = s.inst := rfl
@[simp] theorem dropSlot_adv (s : State) : (dropSlot s).adv = s.adv := rfl
@[simp] theorem dropSlot_inbuf (s : State) : (dropSlot s).inbuf = s.inbuf := rfl
@[simp] theorem dropSlot_lines (s : State) : (dropSlot s).lines = s.lines := rfl
@[simp] theorem dropSlot_tail (s : State) : (dropSlot s).tail = s.tail := rfl
@[simp] theorem dropSlot_closed (s : State) : (dropSlot s).closed = s.closed := rfl
@[simp] theorem dropSlot_output (s : State) : (dropSlot s).output = s.output := rfl

/-! Emit (44_io.md R130). -/

@[simp] theorem emit_mem (s : State) (c : Char) : (emit s c).mem = s.mem := rfl
@[simp] theorem emit_memSize (s : State) (c : Char) : (emit s c).memSize = s.memSize := rfl
@[simp] theorem emit_ctl (s : State) (c : Char) : (emit s c).ctl = s.ctl := rfl
@[simp] theorem emit_initialIp (s : State) (c : Char) : (emit s c).initialIp = s.initialIp := rfl
@[simp] theorem emit_curIp (s : State) (c : Char) : (emit s c).curIp = s.curIp := rfl
@[simp] theorem emit_fetched (s : State) (c : Char) : (emit s c).fetched = s.fetched := rfl
@[simp] theorem emit_inst (s : State) (c : Char) : (emit s c).inst = s.inst := rfl
@[simp] theorem emit_adv (s : State) (c : Char) : (emit s c).adv = s.adv := rfl
@[simp] theorem emit_inbuf (s : State) (c : Char) : (emit s c).inbuf = s.inbuf := rfl
@[simp] theorem emit_lines (s : State) (c : Char) : (emit s c).lines = s.lines := rfl
@[simp] theorem emit_tail (s : State) (c : Char) : (emit s c).tail = s.tail := rfl
@[simp] theorem emit_closed (s : State) (c : Char) : (emit s c).closed = s.closed := rfl
@[simp] theorem emit_output (s : State) (c : Char) : (emit s c).output = s.output ++ [c] := rfl
@[simp] theorem emit_readReg (s : State) (c : Char) (q : Reg) : (emit s c).readReg q = s.readReg q := rfl

/-! Emit of a text. -/

@[simp] theorem emitAll_mem (s : State) (cs : List Char) : (emitAll s cs).mem = s.mem := rfl
@[simp] theorem emitAll_memSize (s : State) (cs : List Char) : (emitAll s cs).memSize = s.memSize := rfl
@[simp] theorem emitAll_ctl (s : State) (cs : List Char) : (emitAll s cs).ctl = s.ctl := rfl
@[simp] theorem emitAll_initialIp (s : State) (cs : List Char) : (emitAll s cs).initialIp = s.initialIp := rfl
@[simp] theorem emitAll_curIp (s : State) (cs : List Char) : (emitAll s cs).curIp = s.curIp := rfl
@[simp] theorem emitAll_fetched (s : State) (cs : List Char) : (emitAll s cs).fetched = s.fetched := rfl
@[simp] theorem emitAll_inst (s : State) (cs : List Char) : (emitAll s cs).inst = s.inst := rfl
@[simp] theorem emitAll_adv (s : State) (cs : List Char) : (emitAll s cs).adv = s.adv := rfl
@[simp] theorem emitAll_inbuf (s : State) (cs : List Char) : (emitAll s cs).inbuf = s.inbuf := rfl
@[simp] theorem emitAll_lines (s : State) (cs : List Char) : (emitAll s cs).lines = s.lines := rfl
@[simp] theorem emitAll_tail (s : State) (cs : List Char) : (emitAll s cs).tail = s.tail := rfl
@[simp] theorem emitAll_closed (s : State) (cs : List Char) : (emitAll s cs).closed = s.closed := rfl
@[simp] theorem emitAll_output (s : State) (cs : List Char) : (emitAll s cs).output = s.output ++ cs := rfl
@[simp] theorem emitAll_readReg (s : State) (cs : List Char) (q : Reg) : (emitAll s cs).readReg q = s.readReg q := rfl

end Sys2Proof.Machine
end

