-- ==== Sys2Proof/Laws/Console.lean ====
section
/-! SUPPORT. One law per operation of the Display boundary. -/

namespace Sys2Proof.Machine

theorem noLine_closed {α : Type} {s : State} (h : s.closed = true) : (noLine s : Input α) = .exhausted s := by
  simp [noLine, h]

theorem noLine_open {α : Type} {s : State} (h : s.closed = false) : (noLine s : Input α) = .blocked s := by
  simp [noLine, h]

theorem refill_line {s : State} {l : List Char} {ls : List (List Char)} (h : s.lines = l :: ls) :
    refill s = .got () { s with inbuf := l, lines := ls } := by
  simp [refill, h]

theorem refill_noLine {s : State} (h : s.lines = []) : refill s = noLine s := by
  simp [refill, h]

/-- GetChar from a buffer that is not empty: no line is read (44_io.md R133, R137). -/
theorem getChar_buffered {s : State} {c : Char} {rest : List Char} (h : s.inbuf = c :: rest) :
    getChar s = .got c { s with inbuf := rest } := by
  simp [getChar, h]

/-- GetChar's loop: from an empty buffer it is one refill, and then GetChar again (44_io.md R133). -/
theorem getChar_refills {s : State} (h : s.inbuf = []) :
    getChar s = (match refill s with
      | .got _ t => getChar t
      | .blocked t => .blocked t
      | .exhausted t => .exhausted t
      | .malformed t => .malformed t) := by
  obtain ⟨mem, memSize, ctl, initialIp, curIp, fetched, inst, adv, inbuf, lines, tail, closed, output⟩ := s
  simp only at h
  subst h
  cases lines with
  | nil => cases closed <;> rfl
  | cons l ls =>
    have hcongr : ∀ (ls : List (List Char)) (a b : List (List Char)),
        getCharRefilling ls ⟨mem, memSize, ctl, initialIp, curIp, fetched, inst, adv, [], a, tail, closed, output⟩ =
          getCharRefilling ls ⟨mem, memSize, ctl, initialIp, curIp, fetched, inst, adv, [], b, tail, closed, output⟩ := by
      intro ls a b
      induction ls with
      | nil => rfl
      | cons l ls ih =>
        cases l with
        | nil => simpa [getCharRefilling] using ih
        | cons c rest => rfl
    cases l with
    | nil => simp only [getChar, getCharRefilling, refill]; exact hcongr ls _ _
    | cons c rest => rfl

/-- GetNum from a buffer that is not empty takes all of it (44_io.md R134). -/
theorem getNum_buffered {s : State} (h : s.inbuf ≠ []) : getNum s = takeNumber s := by
  cases hb : s.inbuf with
  | nil => exact absurd hb h
  | cons c rest => simp [getNum, hb]

/-- GetNum from an empty buffer refills once (44_io.md R134). -/
theorem getNum_refills {s : State} {l : List Char} {ls : List (List Char)} (hb : s.inbuf = []) (hl : s.lines = l :: ls) :
    getNum s = takeNumber { s with inbuf := l, lines := ls } := by
  simp [getNum, hb, refill_line hl]

theorem getNum_noLine {s : State} (hb : s.inbuf = []) (hl : s.lines = []) :
    getNum s = if s.closed then .exhausted s else .blocked s := by
  cases hc : s.closed <;> simp [getNum, hb, refill_noLine hl, noLine, hc]

/-- A digit's character and its value. -/
theorem digitValue_digitChar {d : Nat} (h : d < 10) : digitValue (digitChar d) = some d := by
  exact (by decide : ∀ d : Fin 10, digitValue (digitChar d.val) = some d.val) ⟨d, h⟩

/-- Every decimal place holds a digit. -/
theorem decimalPlaces_lt {v : Word} {d : Nat} (h : d ∈ decimalPlaces v) : d < 10 := by
  obtain ⟨k, -, rfl⟩ := List.mem_map.1 h
  exact Nat.mod_lt _ (by decide)

/-- Reading the lowest `k` places of `n` after a prefix of value `acc`. -/
theorem foldl_places (n k : Nat) : ∀ acc : Nat,
    ((List.range k).reverse.map fun i => n / 10 ^ i % 10).foldl (fun m d => 10 * m + d) acc = acc * 10 ^ k + n % 10 ^ k := by
  induction k with
  | zero => intro acc; simp [Nat.mod_one]
  | succ k ih =>
    intro acc
    rw [List.range_succ, List.reverse_append, List.reverse_singleton, List.singleton_append, List.map_cons,
      List.foldl_cons, ih, Nat.mod_pow_succ]
    ring

/-- The ten places are the value (a u32 is below 10^10). -/
theorem decimalPlaces_value (v : Word) : (decimalPlaces v).foldl (fun m d => 10 * m + d) 0 = v.toNat := by
  have h := foldl_places v.toNat 10 0
  rw [Nat.zero_mul, Nat.zero_add, Nat.mod_eq_of_lt (lt_trans v.isLt (by norm_num))] at h
  exact h

/-- A byte's character has the byte's value as its code (44_io.md R138). -/
theorem charOfByte_toNat (b : Byte) : (charOfByte b).toNat = b.toNat := by
  have h := b.isLt
  rw [charOfByte, Char.toNat_ofNat, if_pos]
  left; omega

end Sys2Proof.Machine
end

