-- ==== Sys2Proof/Laws/Word.lean ====
section
/-! SUPPORT. Laws of words, their bytes, and the 16-bit operand forms. -/

namespace Sys2Proof.Machine

/-- Bit `i` of byte `k` of a word. -/
theorem getLsbD_wordSlice (v : Word) (k i : Nat) (hi : i < 8) : (wordSlice v k).getLsbD i = v.getLsbD (8 * k + i) := by
  simp [wordSlice, hi]

/-- The bits of a word put together from four bytes, the last one lowest. -/
theorem getLsbD_bytes (b3 b2 b1 b0 : Byte) (i : Nat) :
    BitVec.getLsbD (w := 32) (b3 ++ b2 ++ b1 ++ b0) i =
      if i < 8 then b0.getLsbD i else if i < 16 then b1.getLsbD (i - 8)
      else if i < 24 then b2.getLsbD (i - 16) else b3.getLsbD (i - 24) := by
  have h := BitVec.getLsbD_append (x := b3 ++ b2 ++ b1) (y := b0) (i := i)
  refine h.trans ?_
  rw [BitVec.getLsbD_append, BitVec.getLsbD_append]
  by_cases h0 : i < 8
  · simp [h0]
  by_cases h1 : i < 16
  · simp [h0, h1, show i - 8 < 8 by omega]
  by_cases h2 : i < 24
  · simp [h0, h1, h2, show ¬ (i - 8 < 8) by omega, show i - 8 - 8 = i - 16 by omega, show ¬ (8 ≤ i - 16) by omega]
  · simp [h0, h1, h2, show ¬ (i - 8 < 8) by omega, show ¬ (i - 8 - 8 < 8) by omega, show i - 8 - 8 - 8 = i - 24 by omega]

/-- Taking the bytes of a word put together from four bytes. -/
theorem wordSlice_bytes (b3 b2 b1 b0 : Byte) :
    wordSlice (b3 ++ b2 ++ b1 ++ b0) 0 = b0 ∧ wordSlice (b3 ++ b2 ++ b1 ++ b0) 1 = b1 ∧
    wordSlice (b3 ++ b2 ++ b1 ++ b0) 2 = b2 ∧ wordSlice (b3 ++ b2 ++ b1 ++ b0) 3 = b3 := by
  refine ⟨?_, ?_, ?_, ?_⟩ <;>
  · apply BitVec.eq_of_getLsbD_eq; intro i hi
    rw [getLsbD_wordSlice _ _ _ hi, getLsbD_bytes]
    first
    | rw [if_pos (by omega)]; congr 1; omega
    | rw [if_neg (by omega), if_pos (by omega)]; congr 1; omega
    | rw [if_neg (by omega), if_neg (by omega), if_pos (by omega)]; congr 1; omega
    | rw [if_neg (by omega), if_neg (by omega), if_neg (by omega)]; congr 1; omega

/-- A word is its four bytes. -/
theorem append_wordSlices (v : Word) :
    wordSlice v 3 ++ wordSlice v 2 ++ wordSlice v 1 ++ wordSlice v 0 = v := by
  apply BitVec.eq_of_getLsbD_eq; intro i hi
  rw [getLsbD_bytes]
  repeat' split
  all_goals rw [getLsbD_wordSlice _ _ _ (by omega)]; congr 1; omega

/-- The little-endian value of four bytes (20_memory.md R45). -/
theorem toNat_bytes (b3 b2 b1 b0 : Byte) :
    BitVec.toNat (w := 32) (b3 ++ b2 ++ b1 ++ b0) =
      b0.toNat + b1.toNat * 2 ^ 8 + b2.toNat * 2 ^ 16 + b3.toNat * 2 ^ 24 := by
  refine (BitVec.toNat_append (b3 ++ b2 ++ b1) b0).trans ?_
  rw [BitVec.toNat_append, BitVec.toNat_append]
  have l0 := b0.isLt
  have l1 := b1.isLt
  have l2 := b2.isLt
  rw [← Nat.shiftLeft_add_eq_or_of_lt l1, ← Nat.shiftLeft_add_eq_or_of_lt l2, ← Nat.shiftLeft_add_eq_or_of_lt l0]
  simp only [Nat.shiftLeft_eq]
  omega
/-- Sign extension keeps the value (00_scope.md R11). -/
theorem sext32_toInt (o : BitVec 16) : (sext32 o).toInt = o.toInt := by
  exact BitVec.toInt_signExtend_of_le (by omega)

/-- Zero extension keeps the value (00_scope.md R11). -/
theorem zextHalf_toNat (v : BitVec 16) : (zextHalf v).toNat = v.toNat := by
  simp only [zextHalf, BitVec.toNat_setWidth]; omega

/-- Zero extension keeps the value (20_memory.md R47). -/
theorem zextByte_toNat (b : Byte) : (zextByte b).toNat = b.toNat := by
  simp only [zextByte, BitVec.toNat_setWidth]; omega

/-- A comparison's result is 0 or 1 (45_compare.md R147). -/
theorem flagWord_eq_zero (b : Bool) : flagWord b = 0 ↔ b = false := by
  cases b <;> decide

end Sys2Proof.Machine
end

