-- ==== Sys2Proof/Laws/Decode.lean ====
section
/-! SUPPORT. The fields of an encoded instruction. -/

namespace Sys2Proof

/-- A register's own byte names it (30_encoding.md R79). -/
theorem Reg.ofByte_code (r : Reg) : Reg.ofByte r.code = some r := by
  cases r <;> rfl

/-- A byte that names a register is that register's byte. -/
theorem Reg.code_of_ofByte {b : Byte} {r : Reg} (h : Reg.ofByte b = some r) : b = r.code := by
  revert h
  revert b r
  decide

/-- The register-operand byte is the register's address (30_encoding.md R79, 10_state.md R20). -/
theorem Reg.code_toNat (r : Reg) : r.code.toNat = r.addr := by
  cases r <;> rfl

/-- A byte names a register exactly when it is one of the eight of the table (30_encoding.md R79, R80). -/
theorem Reg.ofByte_isSome (b : Byte) : (Reg.ofByte b).isSome = registerByte b := by
  revert b
  decide

/-- Byte 0 of an encoded instruction is its opcode (30_encoding.md R67). -/
theorem byteAt_encode_zero (i : Instr) : byteAt (encode i) 0 = i.opcode := by
  apply BitVec.eq_of_getLsbD_eq
  intro k hk
  have h := BitVec.getLsbD_append (x := i.operandField) (y := i.opcode) (i := k)
  simp only [byteAt, encode, BitVec.getLsbD_extractLsb']
  simp only [show 8 * 0 + k = k by omega, hk, decide_true, Bool.true_and]
  exact h.trans (by simp [hk])

end Sys2Proof
end

