-- ==== Sys2Proof/Laws/Memory.lean ====
section
/-! SUPPORT. Laws of memory as a canonical list: reading after writing, writing keeps the canonical form and the bound on
addresses, and equal reads mean equal memories. -/

namespace Sys2Proof.Machine

/-- The canonical form of a non-empty list, one entry at a time. -/
theorem Memory.wf_cons {k : Nat} {b : Byte} {m : Memory} :
    Memory.wf ((k, b) :: m) ↔ (∀ c ∈ m, k < c.1) ∧ b ≠ Config.unlistedByte ∧ Memory.wf m := by
  simp only [Memory.wf, List.pairwise_cons, List.forall_mem_cons]
  tauto

theorem Memory.wf_nil : Memory.wf [] := by
  simp [Memory.wf]

/-- Every key of a list is above `a`, so `a` is not listed. -/
theorem Memory.byte_below {m : Memory} {a : Nat} (h : ∀ c ∈ m, a < c.1) : m.byte a = Config.unlistedByte := by
  cases m with
  | nil => rfl
  | cons c m => simp [Memory.byte, h c (by simp)]

/-- An address above every key is not listed. -/
theorem Memory.byte_above {m : Memory} {a : Nat} (h : ∀ c ∈ m, c.1 < a) : m.byte a = Config.unlistedByte := by
  induction m with
  | nil => rfl
  | cons c m ih =>
    have h1 := h c (by simp)
    simp only [Memory.byte, show ¬ a < c.1 by omega, show ¬ a = c.1 by omega, if_false]
    exact ih fun d hd => h d (by simp [hd])

/-- The keys of memory after a write: the old ones, and the address written. -/
theorem Memory.mem_put {m : Memory} {a : Nat} {v : Byte} {c : Host.Cell} (h : c ∈ m.put a v) :
    c ∈ m ∨ c.1 = a := by
  induction m with
  | nil => simp only [Memory.put] at h; split at h <;> simp_all
  | cons d m ih =>
    simp only [Memory.put] at h
    split at h
    · split at h
      · exact .inl h
      · rcases List.mem_cons.1 h with rfl | h
        · exact .inr rfl
        · exact .inl h
    · split at h
      · split at h
        · exact .inl (by simp [h])
        · rcases List.mem_cons.1 h with rfl | h
          · exact .inr rfl
          · exact .inl (by simp [h])
      · rcases List.mem_cons.1 h with rfl | h
        · exact .inl (by simp)
        · exact (ih h).imp (by simp +contextual) id

/-- A write keeps the canonical form. -/
theorem Memory.put_wf {m : Memory} (a : Nat) (v : Byte) (h : m.wf) : (m.put a v).wf := by
  induction m with
  | nil => simp only [Memory.put]; split <;> simp_all [Memory.wf]
  | cons d m ih =>
    obtain ⟨hk, hb, hm⟩ := Memory.wf_cons.1 h
    simp only [Memory.put]
    split
    · split
      · exact h
      · rename_i h1 h2
        refine Memory.wf_cons.2 ⟨?_, h2, h⟩
        intro c hc
        rcases List.mem_cons.1 hc with rfl | hc
        · exact h1
        · exact lt_trans h1 (hk c hc)
    · split
      · split
        · exact hm
        · rename_i h1 h2
          subst h1
          exact Memory.wf_cons.2 ⟨hk, h2, hm⟩
      · refine Memory.wf_cons.2 ⟨?_, hb, ih hm⟩
        intro c hc
        rcases Memory.mem_put hc with hc | rfl
        · exact hk c hc
        · omega

/-- Reading after a write: the byte written at its address, every other byte as before. -/
theorem Memory.byte_put {m : Memory} (h : m.wf) (a : Nat) (v : Byte) (x : Nat) :
    (m.put a v).byte x = if x = a then v else m.byte x := by
  induction m with
  | nil =>
    simp only [Memory.put]
    split
    · simp_all [Memory.byte]
    · simp only [Memory.byte]; split <;> split <;> simp_all
  | cons d m ih =>
    obtain ⟨hk, hb, hm⟩ := Memory.wf_cons.1 h
    have habove : x ≤ d.1 → Memory.byte m x = Config.unlistedByte :=
      fun hx => Memory.byte_below fun c hc => lt_of_le_of_lt hx (hk c hc)
    simp only [Memory.put]
    split
    · split
      · by_cases hx : x = a
        · subst hx; simp_all [Memory.byte]
        · simp [hx]
      · by_cases hx : x = a
        · subst hx; simp [Memory.byte]
        · by_cases hlt : x < a
          · simp [Memory.byte, hlt, hx, show x < d.1 by omega]
          · simp [Memory.byte, hlt, hx]
    · split
      · rename_i h1 h2
        subst h2
        split
        · by_cases hx : x = d.1
          · subst hx; simp_all
          · by_cases hlt : x < d.1
            · simp [Memory.byte, hx, hlt, habove (by omega)]
            · simp [Memory.byte, hx, hlt]
        · by_cases hx : x = d.1
          · subst hx; simp [Memory.byte]
          · simp [Memory.byte, hx]
      · rename_i h1 h2
        simp only [Memory.byte]
        by_cases hlt : x < d.1
        · simp [hlt, show ¬ x = a by omega]
        · by_cases hx : x = d.1
          · subst hx; simp [show ¬ d.1 = a by omega]
          · simp [hlt, hx, ih hm]

/-- Addresses below a bound stay below it. -/
theorem Memory.put_lt {m : Memory} {n a : Nat} {v : Byte} (h : ∀ c ∈ m, c.1 < n) (ha : a < n) :
    ∀ c ∈ m.put a v, c.1 < n := by
  intro c hc
  rcases Memory.mem_put hc with hc | hc
  · exact h c hc
  · omega

/-- Two canonical memories that read alike everywhere are the same list. -/
theorem Memory.eq_of_byte {m n : Memory} (hm : m.wf) (hn : n.wf) (h : ∀ a, m.byte a = n.byte a) : m = n := by
  induction m generalizing n with
  | nil =>
    cases n with
    | nil => rfl
    | cons d n =>
      have := h d.1
      obtain ⟨-, hb, -⟩ := Memory.wf_cons.1 hn
      simp [Memory.byte] at this
      exact absurd this.symm hb
  | cons c m ih =>
    obtain ⟨hkc, hbc, hm'⟩ := Memory.wf_cons.1 hm
    cases n with
    | nil =>
      have := h c.1
      simp [Memory.byte] at this
      exact absurd this hbc
    | cons d n =>
      obtain ⟨hkd, hbd, hn'⟩ := Memory.wf_cons.1 hn
      obtain ⟨k, b⟩ := c
      obtain ⟨l, e⟩ := d
      have hkl : k = l := by
        by_contra hne
        rcases Nat.lt_or_gt_of_ne hne with hlt | hlt
        · have := h k
          simp [Memory.byte, hlt] at this
          exact hbc this
        · have := h l
          simp [Memory.byte, hlt] at this
          exact hbd this.symm
      subst hkl
      have hbe : b = e := by simpa [Memory.byte] using h k
      subst hbe
      congr 1
      refine ih hm' hn' fun a => ?_
      by_cases ha : a ≤ k
      · rw [Memory.byte_below fun c hc => lt_of_le_of_lt ha (hkc c hc),
          Memory.byte_below fun c hc => lt_of_le_of_lt ha (hkd c hc)]
      · simpa [Memory.byte, show ¬ a < k by omega, show ¬ a = k by omega] using h a

/-! ### Words -/

theorem Memory.putWord_wf {m : Memory} (a : Nat) (v : Word) (h : m.wf) : (m.putWord a v).wf :=
  Memory.put_wf _ _ (Memory.put_wf _ _ (Memory.put_wf _ _ (Memory.put_wf _ _ h)))

theorem Memory.putWord_lt {m : Memory} {n a : Nat} {v : Word} (h : ∀ c ∈ m, c.1 < n) (ha : a + 4 ≤ n) :
    ∀ c ∈ m.putWord a v, c.1 < n :=
  Memory.put_lt (Memory.put_lt (Memory.put_lt (Memory.put_lt h (by omega)) (by omega)) (by omega)) (by omega)

/-- Reading a byte after a word write: the word's byte inside it, the old byte outside. -/
theorem Memory.byte_putWord {m : Memory} (h : m.wf) (a : Nat) (v : Word) (x : Nat) :
    (m.putWord a v).byte x = if a ≤ x ∧ x < a + 4 then wordSlice v (x - a) else m.byte x := by
  unfold Memory.putWord
  rw [Memory.byte_put (Memory.put_wf _ _ (Memory.put_wf _ _ (Memory.put_wf _ _ h))),
    Memory.byte_put (Memory.put_wf _ _ (Memory.put_wf _ _ h)), Memory.byte_put (Memory.put_wf _ _ h), Memory.byte_put h]
  by_cases h3 : x = a + 3
  · simp [h3]
  by_cases h2 : x = a + 2
  · simp [h2]
  by_cases h1 : x = a + 1
  · simp [h1]
  by_cases h0 : x = a
  · simp [h0]
  · simp [h0, h1, h2, h3, show ¬ (a ≤ x ∧ x < a + 4) by omega]

theorem Memory.byte_putWord_outside {m : Memory} (h : m.wf) {a x : Nat} (v : Word) (hx : x < a ∨ a + 4 ≤ x) :
    (m.putWord a v).byte x = m.byte x := by
  rw [Memory.byte_putWord h, if_neg (by omega)]

/-- The word written is read back. -/
theorem Memory.word_putWord_same {m : Memory} (h : m.wf) (a : Nat) (v : Word) : (m.putWord a v).word a = v := by
  simp only [Memory.word, Memory.byte_putWord h]
  simp only [show a ≤ a + 3 ∧ a + 3 < a + 4 by omega, show a ≤ a + 2 ∧ a + 2 < a + 4 by omega,
    show a ≤ a + 1 ∧ a + 1 < a + 4 by omega, show a ≤ a ∧ a < a + 4 by omega, and_self, if_true,
    Nat.add_sub_cancel_left, Nat.sub_self]
  exact append_wordSlices v

/-- A word that does not overlap the one written is as it was. -/
theorem Memory.word_putWord_apart {m : Memory} (h : m.wf) {a x : Nat} (v : Word) (hx : x + 4 ≤ a ∨ a + 4 ≤ x) :
    (m.putWord a v).word x = m.word x := by
  simp only [Memory.word]
  rw [Memory.byte_putWord_outside h v (by omega), Memory.byte_putWord_outside h v (by omega),
    Memory.byte_putWord_outside h v (by omega), Memory.byte_putWord_outside h v (by omega)]

/-- A word is fixed by its four bytes. -/
theorem Memory.word_congr {m n : Memory} {a : Nat} (h : ∀ x, a ≤ x → x < a + 4 → m.byte x = n.byte x) :
    m.word a = n.word a := by
  simp only [Memory.word]
  rw [h _ (by omega) (by omega), h _ (by omega) (by omega), h _ (by omega) (by omega), h a (by omega) (by omega)]

/-- The value of a word is the little-endian value of its bytes (20_memory.md R45). -/
theorem Memory.word_toNat (m : Memory) (a : Nat) :
    (m.word a).toNat = (m.byte a).toNat + (m.byte (a + 1)).toNat * 2 ^ 8 + (m.byte (a + 2)).toNat * 2 ^ 16 +
      (m.byte (a + 3)).toNat * 2 ^ 24 :=
  toNat_bytes _ _ _ _

/-! ### Images -/

theorem Memory.ofImageFrom_ge {a : Nat} {bs : List Byte} : ∀ c ∈ Memory.ofImageFrom a bs, a ≤ c.1 := by
  induction bs generalizing a with
  | nil => simp [Memory.ofImageFrom]
  | cons b bs ih =>
    intro c hc
    simp only [Memory.ofImageFrom] at hc
    split at hc
    · exact le_trans (Nat.le_succ a) (ih c hc)
    · rcases List.mem_cons.1 hc with rfl | hc
      · exact le_refl _
      · exact le_trans (Nat.le_succ a) (ih c hc)

theorem Memory.ofImageFrom_lt {a : Nat} {bs : List Byte} : ∀ c ∈ Memory.ofImageFrom a bs, c.1 < a + bs.length := by
  induction bs generalizing a with
  | nil => simp [Memory.ofImageFrom]
  | cons b bs ih =>
    intro c hc
    simp only [Memory.ofImageFrom] at hc
    simp only [List.length_cons]
    split at hc
    · have := ih c hc; omega
    · rcases List.mem_cons.1 hc with rfl | hc
      · omega
      · have := ih c hc; omega

theorem Memory.ofImageFrom_wf {a : Nat} {bs : List Byte} : (Memory.ofImageFrom a bs).wf := by
  induction bs generalizing a with
  | nil => exact Memory.wf_nil
  | cons b bs ih =>
    simp only [Memory.ofImageFrom]
    split
    · exact ih
    · rename_i h
      exact Memory.wf_cons.2 ⟨fun c hc => Memory.ofImageFrom_ge c hc, h, ih⟩

/-- Memory after a construction reads as the image (70_reset_and_hazards.md R179). -/
theorem Memory.byte_ofImageFrom {a : Nat} {bs : List Byte} (k : Nat) :
    (Memory.ofImageFrom a bs).byte (a + k) = bs.getD k Config.unlistedByte := by
  induction bs generalizing a k with
  | nil => simp [Memory.ofImageFrom, Memory.byte]
  | cons b bs ih =>
    simp only [Memory.ofImageFrom]
    cases k with
    | zero =>
      split
      · rename_i h
        show Memory.byte _ a = _
        rw [Memory.byte_below (m := Memory.ofImageFrom (a + 1) bs) fun c hc =>
          Nat.lt_of_succ_le (Memory.ofImageFrom_ge c hc)]
        simp [h]
      · simp [Memory.byte]
    | succ k =>
      have := ih (a := a + 1) k
      rw [show a + 1 + k = a + (k + 1) by omega] at this
      split
      · simpa using this
      · simpa [Memory.byte] using this

end Sys2Proof.Machine
end

