-- ==== Sys2Proof/Laws/Ops.lean ====
section
/-! SUPPORT. One law per shared operation of Machine/Ops.lean and Machine/Operands.lean: everything it can do. -/

namespace Sys2Proof.Machine

/-! ### Registers -/

/-- The registers' words do not overlap (10_state.md R20). -/
theorem Reg.addr_apart {q r : Reg} (h : q ≠ r) : q.addr + 4 ≤ r.addr ∨ r.addr + 4 ≤ q.addr := by
  cases q <;> cases r <;> first | exact absurd rfl h | decide

theorem Reg.addr_le (r : Reg) : r.addr + 4 ≤ Config.minMemSize := by
  cases r <;> decide

theorem Reg.addr_aligned (r : Reg) : r.addr % 4 = 0 := by
  cases r <;> decide

theorem State.readReg_writeReg_same {s : State} (h : s.mem.wf) (r : Reg) (v : Word) :
    (s.writeReg r v).readReg r = v :=
  Memory.word_putWord_same h _ _

theorem State.readReg_writeReg_other {s : State} (h : s.mem.wf) {q r : Reg} (v : Word) (hq : q ≠ r) :
    (s.writeReg r v).readReg q = s.readReg q :=
  Memory.word_putWord_apart h v (Reg.addr_apart hq)

/-- A register read after a register write. -/
theorem State.readReg_writeReg {s : State} (h : s.mem.wf) (q r : Reg) (v : Word) :
    (s.writeReg r v).readReg q = if q = r then v else s.readReg q := by
  split
  · rename_i hq; subst hq; exact State.readReg_writeReg_same h _ _
  · rename_i hq; exact State.readReg_writeReg_other h v hq

/-- A register write keeps the canonical form of memory and the bound on addresses. -/
theorem State.writeReg_wf {s : State} (h : s.wf) (r : Reg) (v : Word) : (s.writeReg r v).wf :=
  ⟨h.1, h.2.1, Memory.putWord_wf _ _ h.2.2.1,
    Memory.putWord_lt h.2.2.2 (le_trans (Reg.addr_le r) h.1)⟩

/-- A register write changes that register and its four bytes, and nothing else. -/
theorem onlyWrites_writeReg {s : State} (h : s.wf) (r : Reg) (v : Word) : onlyWrites s (s.writeReg r v) r v :=
  ⟨State.readReg_writeReg_same h.2.2.1 r v, fun _ hq => State.readReg_writeReg_other h.2.2.1 v hq,
    fun _ ha => Memory.byte_putWord_outside h.2.2.1 v ha, ⟨rfl, rfl, rfl, rfl, rfl⟩, ⟨rfl, rfl, rfl, rfl⟩, rfl⟩

/-- The end of Execute adds nothing to what was written. -/
theorem onlyWrites_endExecute {s t : State} {r : Reg} {v : Word} (adv : Bool) :
    onlyWrites s (endExecute adv t) r v ↔ onlyWrites s t r v :=
  Iff.rfl

/-- A fault entry adds nothing to what was written. -/
theorem onlyWrites_raise {s t : State} {r : Reg} {v : Word} (f : Fault) :
    onlyWrites s (raise f t) r v ↔ onlyWrites s t r v :=
  Iff.rfl

theorem ended_endExecute (adv : Bool) (s : State) : ended adv (endExecute adv s) :=
  ⟨rfl, rfl⟩

/-! ### The checked memory interface -/

theorem loadByte_outOfBounds {s : State} {a : Word} (h : s.memSize ≤ a.toNat) :
    loadByte s a = .error (.outOfBounds a 1 s.curIp) := by
  simp [loadByte, h]

theorem loadByte_ok {s : State} {a : Word} (h : a.toNat < s.memSize) : loadByte s a = .ok (s.mem.byte a.toNat) := by
  simp [loadByte, Nat.not_le.2 h]

theorem loadWord_misaligned {s : State} {a : Word} (h : a.toNat % 4 ≠ 0) :
    loadWord s a = .error (.misalignedWordAccess a 4 s.curIp) := by
  simp [loadWord, h]

theorem loadWord_outOfBounds {s : State} {a : Word} (h : a.toNat % 4 = 0) (hn : s.memSize < a.toNat + 4) :
    loadWord s a = .error (.outOfBounds a 4 s.curIp) := by
  simp [loadWord, h, hn]

theorem loadWord_ok {s : State} {a : Word} (h : a.toNat % 4 = 0) (hn : a.toNat + 4 ≤ s.memSize) :
    loadWord s a = .ok (s.mem.word a.toNat) := by
  simp [loadWord, h, Nat.not_lt.2 hn]

/-- A word load raises the same faults as a word store, and none of them when aligned and in bounds. -/
theorem storeWord_misaligned {s : State} {a v : Word} (h : a.toNat % 4 ≠ 0) :
    storeWord s a v = .error (.misalignedWordAccess a 4 s.curIp) := by
  simp [storeWord, h]

theorem storeWord_outOfBounds {s : State} {a v : Word} (h : a.toNat % 4 = 0) (hn : s.memSize < a.toNat + 4) :
    storeWord s a v = .error (.outOfBounds a 4 s.curIp) := by
  simp [storeWord, h, hn]

theorem storeWord_ok {s : State} {a v : Word} (h : a.toNat % 4 = 0) (hn : a.toNat + 4 ≤ s.memSize) :
    storeWord s a v = .ok { s with mem := s.mem.putWord a.toNat v } := by
  simp [storeWord, h, Nat.not_lt.2 hn]

/-- A word store that succeeds was aligned and in bounds, and wrote the word and nothing else. -/
theorem storeWord_eq_ok {s t : State} {a v : Word} (h : storeWord s a v = .ok t) :
    a.toNat % 4 = 0 ∧ a.toNat + 4 ≤ s.memSize ∧ t = { s with mem := s.mem.putWord a.toNat v } := by
  by_cases h1 : a.toNat % 4 = 0
  · by_cases h2 : s.memSize < a.toNat + 4
    · rw [storeWord_outOfBounds h1 h2] at h; exact absurd h (by simp)
    · rw [storeWord_ok h1 (Nat.not_lt.1 h2)] at h
      exact ⟨h1, Nat.not_lt.1 h2, (Except.ok.inj h).symm⟩
  · rw [storeWord_misaligned h1] at h; exact absurd h (by simp)

theorem storeWord_wf {s t : State} {a v : Word} (hs : s.wf) (h : storeWord s a v = .ok t) : t.wf := by
  obtain ⟨-, hn, rfl⟩ := storeWord_eq_ok h
  exact ⟨hs.1, hs.2.1, Memory.putWord_wf _ _ hs.2.2.1, Memory.putWord_lt hs.2.2.2 hn⟩

/-- A byte store that succeeds was in bounds, and wrote the byte and nothing else. -/
theorem storeByte_eq_ok {s t : State} {a : Word} {b : Byte} (h : storeByte s a b = .ok t) :
    a.toNat < s.memSize ∧ t = { s with mem := s.mem.put a.toNat b } := by
  simp only [storeByte] at h
  split at h
  · exact absurd h (by simp)
  · exact ⟨by omega, (Except.ok.inj h).symm⟩

theorem storeByte_wf {s t : State} {a : Word} {b : Byte} (hs : s.wf) (h : storeByte s a b = .ok t) : t.wf := by
  obtain ⟨hn, rfl⟩ := storeByte_eq_ok h
  exact ⟨hs.1, hs.2.1, Memory.put_wf _ _ hs.2.2.1, Memory.put_lt hs.2.2.2 hn⟩

/-- A register access is the checked word access at the register's address, whose checks never fail (00_scope.md R12;
20_memory.md R49). -/
theorem loadWord_register {s : State} (h : Config.minMemSize ≤ s.memSize) (r : Reg) :
    loadWord s (BitVec.ofNat 32 r.addr) = .ok (s.readReg r) := by
  have h1 : (BitVec.ofNat 32 r.addr).toNat = r.addr := by cases r <;> rfl
  rw [loadWord_ok (by rw [h1]; exact Reg.addr_aligned r) (by rw [h1]; exact le_trans (Reg.addr_le r) h), h1]
  rfl

theorem storeWord_register {s : State} (h : Config.minMemSize ≤ s.memSize) (r : Reg) (v : Word) :
    storeWord s (BitVec.ofNat 32 r.addr) v = .ok (s.writeReg r v) := by
  have h1 : (BitVec.ofNat 32 r.addr).toNat = r.addr := by cases r <;> rfl
  rw [storeWord_ok (by rw [h1]; exact Reg.addr_aligned r) (by rw [h1]; exact le_trans (Reg.addr_le r) h), h1]
  rfl

/-! ### The stack -/

/-- A push that succeeds: SP was aligned and in bounds, the word went there, and SP, re-read, was increased by 4. -/
theorem pushWord_eq_ok {s t : State} {v : Word} (h : pushWord s v = .ok t) :
    (s.readReg .sp).toNat % 4 = 0 ∧ (s.readReg .sp).toNat + 4 ≤ s.memSize ∧
      ∃ u, u = { s with mem := s.mem.putWord (s.readReg .sp).toNat v } ∧ t = u.writeReg .sp (u.readReg .sp + 4) := by
  simp only [pushWord] at h
  split at h
  · exact absurd h (by simp)
  · rename_i u hu
    obtain ⟨h1, h2, rfl⟩ := storeWord_eq_ok hu
    exact ⟨h1, h2, _, rfl, (Except.ok.inj h).symm⟩

theorem pushWord_ok {s : State} {v : Word} (h : (s.readReg .sp).toNat % 4 = 0)
    (hn : (s.readReg .sp).toNat + 4 ≤ s.memSize) {u : State}
    (hu : u = { s with mem := s.mem.putWord (s.readReg .sp).toNat v }) :
    pushWord s v = .ok (u.writeReg .sp (u.readReg .sp + 4)) := by
  subst hu
  simp only [pushWord, storeWord_ok h hn]

theorem pushWord_misaligned {s : State} {v : Word} (h : (s.readReg .sp).toNat % 4 ≠ 0) :
    pushWord s v = .error (.misalignedWordAccess (s.readReg .sp) 4 s.curIp) := by
  simp only [pushWord, storeWord_misaligned h]

theorem pushWord_outOfBounds {s : State} {v : Word} (h : (s.readReg .sp).toNat % 4 = 0)
    (hn : s.memSize < (s.readReg .sp).toNat + 4) :
    pushWord s v = .error (.outOfBounds (s.readReg .sp) 4 s.curIp) := by
  simp only [pushWord, storeWord_outOfBounds h hn]

theorem pushWord_wf {s t : State} {v : Word} (hs : s.wf) (h : pushWord s v = .ok t) : t.wf := by
  obtain ⟨-, hn, u, rfl, rfl⟩ := pushWord_eq_ok h
  refine State.writeReg_wf (s := { s with mem := s.mem.putWord (s.readReg .sp).toNat v }) ?_ _ _
  exact ⟨hs.1, hs.2.1, Memory.putWord_wf _ _ hs.2.2.1, Memory.putWord_lt hs.2.2.2 hn⟩

/-- SP after the first step of a pop. -/
theorem dropSlot_sp {s : State} (h : s.mem.wf) : (dropSlot s).readReg .sp = s.readReg .sp - 4 :=
  State.readReg_writeReg_same h _ _

theorem dropSlot_wf {s : State} (h : s.wf) : (dropSlot s).wf :=
  State.writeReg_wf h _ _

/-- A pop, from the decremented SP `a`: the two faults keep the decrement, and otherwise the register gets the word at
`a` and the instruction advances. -/
theorem popInto_cases (r : Reg) {s : State} {a : Word} (ha : (dropSlot s).readReg .sp = a) :
    popInto r s =
      if a.toNat % 4 ≠ 0 then takeFault (.misalignedWordAccess a 4 s.curIp) (dropSlot s)
      else if s.memSize < a.toNat + 4 then takeFault (.outOfBounds a 4 s.curIp) (dropSlot s)
      else complete true ((dropSlot s).writeReg r ((dropSlot s).mem.word a.toNat)) := by
  simp only [popInto, ha, loadWord, dropSlot_memSize, dropSlot_curIp]
  split
  · rename_i h
    split at h
    · rename_i h1; rw [if_pos h1]; cases h; rfl
    · rename_i h1
      rw [if_neg h1]
      split at h
      · rename_i h2; rw [if_pos h2]; cases h; rfl
      · exact absurd h (by simp)
  · rename_i h
    split at h
    · exact absurd h (by simp)
    · rename_i h1
      rw [if_neg h1]
      split at h
      · exact absurd h (by simp)
      · rename_i h2; rw [if_neg h2]; cases h; rfl

/-! ### Operand forms -/

/-- The value of an IP-relative address: the exact sum, modulo 2^32 (42_control_transfer.md R116). -/
theorem ipRelative_toNat (s : State) (o : BitVec 16) :
    ((ipRelative s o).toNat : Int) = ((s.readReg .ip).toNat + o.toInt) % 2 ^ 32 := by
  have h := sext32_toInt o
  have hlt := (sext32 o).isLt
  simp only [ipRelative, BitVec.toNat_add]
  rw [← h, BitVec.toInt_eq_toNat_cond]
  split <;> omega

theorem jumpTo_wf {s : State} (h : s.wf) (o : BitVec 16) : (jumpTo s o).wf :=
  State.writeReg_wf h _ _

theorem setCmp_wf {s : State} (h : s.wf) (b : Bool) : (setCmp s b).wf :=
  State.writeReg_wf h _ _

/-! ### Reset and construction -/

/-- Memory at reset is in canonical form and within bounds. -/
theorem reset_wf : State.reset.wf := by
  refine ⟨by decide, by decide, Memory.wf_nil, by simp [State.reset]⟩

/-- Memory after a construction is in canonical form and within bounds. -/
theorem construct_wf {image : List Byte} {s : State} (h : State.construct image = some s) : s.wf := by
  simp only [State.construct] at h
  split at h
  · exact absurd h (by simp)
  · rename_i hn
    obtain ⟨h1, h2⟩ := not_or.1 hn
    cases h
    refine ⟨Nat.not_lt.1 h1, Nat.not_lt.1 h2, Memory.ofImageFrom_wf, fun c hc => ?_⟩
    have := Memory.ofImageFrom_lt c hc
    simpa using this

end Sys2Proof.Machine
end

