-- ==== Sys2Proof/Laws/PerInstr.lean ====
section
/-! SUPPORT. Statements about every instruction as syntax, one lemma per constructor.

The family `OpcodeForm`: byte 0 of the instruction's word is its own opcode, and that opcode selects the format the
instruction has in the opcode map (30_encoding.md R82, R84). -/

namespace Sys2Proof.Laws.OpcodeForm

def Statement (i : Instr) : Prop :=
  byteAt (encode i) 0 = i.opcode ∧ formatOf i.opcode.toNat = some i.format

theorem add (x0 : Reg) (x1 : Reg) (x2 : Reg) : Statement (.add x0 x1 x2) := ⟨byteAt_encode_zero _, rfl⟩
theorem sub (x0 : Reg) (x1 : Reg) (x2 : Reg) : Statement (.sub x0 x1 x2) := ⟨byteAt_encode_zero _, rfl⟩
theorem mul (x0 : Reg) (x1 : Reg) (x2 : Reg) : Statement (.mul x0 x1 x2) := ⟨byteAt_encode_zero _, rfl⟩
theorem div (x0 : Reg) (x1 : Reg) (x2 : Reg) : Statement (.div x0 x1 x2) := ⟨byteAt_encode_zero _, rfl⟩
theorem jmp (x0 : BitVec 16) : Statement (.jmp x0) := ⟨byteAt_encode_zero _, rfl⟩
theorem ld (x0 : Reg) (x1 : BitVec 16) : Statement (.ld x0 x1) := ⟨byteAt_encode_zero _, rfl⟩
theorem fin : Statement (.fin) := ⟨byteAt_encode_zero _, rfl⟩
theorem out (x0 : Reg) : Statement (.out x0) := ⟨byteAt_encode_zero _, rfl⟩
theorem eq (x0 : Reg) (x1 : Reg) : Statement (.eq x0 x1) := ⟨byteAt_encode_zero _, rfl⟩
theorem lt (x0 : Reg) (x1 : Reg) : Statement (.lt x0 x1) := ⟨byteAt_encode_zero _, rfl⟩
theorem le (x0 : Reg) (x1 : Reg) : Statement (.le x0 x1) := ⟨byteAt_encode_zero _, rfl⟩
theorem ldabs (x0 : Reg) (x1 : BitVec 16) : Statement (.ldabs x0 x1) := ⟨byteAt_encode_zero _, rfl⟩
theorem inp (x0 : Reg) : Statement (.inp x0) := ⟨byteAt_encode_zero _, rfl⟩
theorem jeq (x0 : BitVec 16) : Statement (.jeq x0) := ⟨byteAt_encode_zero _, rfl⟩
theorem jne (x0 : BitVec 16) : Statement (.jne x0) := ⟨byteAt_encode_zero _, rfl⟩
theorem outr (x0 : Reg) : Statement (.outr x0) := ⟨byteAt_encode_zero _, rfl⟩
theorem skip : Statement (.skip) := ⟨byteAt_encode_zero _, rfl⟩
theorem outnum (x0 : Reg) : Statement (.outnum x0) := ⟨byteAt_encode_zero _, rfl⟩
theorem mov (x0 : Reg) (x1 : Reg) : Statement (.mov x0 x1) := ⟨byteAt_encode_zero _, rfl⟩
theorem innum (x0 : Reg) : Statement (.innum x0) := ⟨byteAt_encode_zero _, rfl⟩
theorem push (x0 : Reg) : Statement (.push x0) := ⟨byteAt_encode_zero _, rfl⟩
theorem pop (x0 : Reg) : Statement (.pop x0) := ⟨byteAt_encode_zero _, rfl⟩
theorem call (x0 : BitVec 16) : Statement (.call x0) := ⟨byteAt_encode_zero _, rfl⟩
theorem ret : Statement (.ret) := ⟨byteAt_encode_zero _, rfl⟩

end Sys2Proof.Laws.OpcodeForm
end

