-- ==== Sys2Proof/Laws/Step.lean ====
section
/-! SUPPORT. The controller's stages, each by its cases, and what step is from each control state. -/

namespace Sys2Proof.Machine

theorem endSet_iff (s : State) : endSet s = true ↔ s.readReg .endr ≠ 0 := by
  simp [endSet]

theorem cmpSet_iff (s : State) : cmpSet s = true ↔ s.readReg .cmp ≠ 0 := by
  simp [cmpSet]

@[simp] theorem readyStage_eq (s : State) : readyStage s = s := rfl

theorem checkStage_exit {s : State} (h : s.readReg .endr ≠ 0) : checkStage s = { s with ctl := .running .exit } := by
  simp [checkStage, (endSet_iff s).2 h]

theorem checkStage_fetch {s : State} (h : s.readReg .endr = 0) : checkStage s = { s with ctl := .running .fetch } := by
  have : endSet s = false := by simp [endSet, h]
  simp [checkStage, this]

theorem fetchStage_ok {s : State} (h : (s.readReg .ip).toNat % 4 = 0) (hn : (s.readReg .ip).toNat + 4 ≤ s.memSize) :
    fetchStage s =
      { latchCurIp s with fetched := s.mem.word (s.readReg .ip).toNat, ctl := .running .decode } := by
  have hl := loadWord_ok (s := latchCurIp s) h hn
  simp only [fetchStage, hl]
  rfl

theorem fetchStage_misaligned {s : State} (h : (s.readReg .ip).toNat % 4 ≠ 0) :
    fetchStage s = raise (.misalignedWordAccess (s.readReg .ip) 4 (s.readReg .ip)) (latchCurIp s) := by
  have hl := loadWord_misaligned (s := latchCurIp s) h
  simp only [fetchStage, hl]
  rfl

theorem fetchStage_outOfBounds {s : State} (h : (s.readReg .ip).toNat % 4 = 0)
    (hn : s.memSize < (s.readReg .ip).toNat + 4) :
    fetchStage s = raise (.outOfBounds (s.readReg .ip) 4 (s.readReg .ip)) (latchCurIp s) := by
  have hl := loadWord_outOfBounds (s := latchCurIp s) h hn
  simp only [fetchStage, hl]
  rfl

theorem decodeStage_ok {s : State} {i : Instr} (h : decode s.fetched = .ok i) :
    decodeStage s = { s with inst := i, ctl := .running .execute } := by
  simp [decodeStage, h]

theorem decodeStage_error {s : State} {e : DecodeError} (h : decode s.fetched = .error e) :
    decodeStage s = raise (faultOfDecode e s.curIp) s := by
  simp [decodeStage, h]

theorem advanceStage_true {s : State} (h : s.adv = true) :
    advanceStage s = { s.writeReg .ip (s.readReg .ip + 4) with ctl := .running .check } := by
  simp [advanceStage, h]

theorem advanceStage_false {s : State} (h : s.adv = false) : advanceStage s = { s with ctl := .running .check } := by
  simp [advanceStage, h]

theorem advanceStage_wf {s : State} (h : s.wf) : (advanceStage s).wf := by
  cases ha : s.adv
  · rw [advanceStage_false ha]; exact h
  · rw [advanceStage_true ha]; exact State.writeReg_wf h _ _

theorem exitStage_wf {s : State} (h : s.wf) : (exitStage s).wf :=
  State.writeReg_wf (State.writeReg_wf h _ _) _ _

theorem afterExecute_advances {t : State} (h : t.ctl = .running .advance) :
    afterExecute (.next t) = .next (advanceStage t) := by
  simp [afterExecute, h]

theorem afterExecute_stops {t : State} (h : t.ctl ≠ .running .advance) : afterExecute (.next t) = .next t := by
  simp [afterExecute, h]

end Sys2Proof.Machine
end

