-- ==== Sys2Proof/Tests/Slice0.lean ====
section
/-! SUPPORT. Tests: the well-formedness check refuses ill-formed words; words written out byte by byte from the spec's
encodings decode to their instructions; one step of each instruction gives what 95_test_vectors.md says (the vector's id
stands at each test); and a concrete witness of the hypotheses of every statement that has some. -/

namespace Sys2Proof.Tests

open Sys2Proof.Machine

/-! ### Helpers -/

/-- A machine at Check with `n` bytes of memory, `code` at `ip`, IP there, and some registers set. -/
def start (n ip : Nat) (code : List Byte) (regs : List (Reg × Word)) : State :=
  regs.foldl (fun s p => s.writeReg p.1 p.2)
    (({ State.reset with
        memSize := n, ctl := .running .check, mem := Memory.ofImageFrom ip code, initialIp := 0x20 } : State).writeReg .ip
      (BitVec.ofNat 32 ip))

/-- A machine with bytes placed at an address as well. -/
def withBytes (s : State) (a : Nat) (bs : List Byte) : State :=
  (List.range bs.length).foldl (fun s k => { s with mem := s.mem.put (a + k) (bs.getD k 0) }) s

/-- The step answers a next state with this property. -/
def nextHas (o : Host.Outcome State Fault Refusal) (p : State → Bool) : Bool :=
  match o with
  | .next t => p t
  | _ => false

/-! ### Well-formedness: one ill-formed word for each check (30_encoding.md R80, R85) -/

theorem test_wellformed_accepts_add : wordWellFormed (wordOfBytes 0x01 0x04 0x08 0x0C) = true := by decide

theorem test_wellformed_refuses_opcode :
    wordWellFormed (wordOfBytes 0x00 0 0 0) = false ∧ wordWellFormed (wordOfBytes 0x19 4 8 0) = false := by decide

theorem test_wellformed_refuses_register_byte_1 : wordWellFormed (wordOfBytes 0x0C 0x05 7 0) = false := by decide

theorem test_wellformed_refuses_register_byte_2 : wordWellFormed (wordOfBytes 0x01 0x04 0x05 0x0C) = false := by decide

theorem test_wellformed_refuses_register_byte_3 : wordWellFormed (wordOfBytes 0x01 0x04 0x08 0x20) = false := by decide

/-! ### Decoding: every constructor by a word written out from its row (30_encoding.md R84, R91) -/

theorem test_decode_arithmetic :
    decode (wordOfBytes 0x01 0x04 0x08 0x0C) = .ok (.add .r0 .r1 .r2) ∧
    decode (wordOfBytes 0x02 0x04 0x08 0x04) = .ok (.sub .r0 .r1 .r0) ∧
    decode (wordOfBytes 0x03 0x10 0x14 0x18) = .ok (.mul .r3 .cmp .endr) ∧
    decode (wordOfBytes 0x04 0x04 0x00 0x1C) = .ok (.div .r0 .ip .sp) := ⟨rfl, rfl, rfl, rfl⟩

theorem test_decode_control :
    decode (wordOfBytes 0x05 0xF8 0xFF 0x00) = .ok (.jmp 0xFFF8) ∧
    decode (wordOfBytes 0x0E 0x10 0x00 0x00) = .ok (.jeq 0x0010) ∧
    decode (wordOfBytes 0x0F 0xF4 0xFF 0x00) = .ok (.jne 0xFFF4) ∧
    decode (wordOfBytes 0x17 0x0C 0x01 0xAA) = .ok (.call 0x010C) ∧
    decode (wordOfBytes 0x18 0x00 0x00 0x00) = .ok .ret ∧
    decode (wordOfBytes 0x07 0xFF 0x12 0x34) = .ok .fin ∧
    decode (wordOfBytes 0x11 0xAA 0xBB 0xCC) = .ok .skip := ⟨rfl, rfl, rfl, rfl, rfl, rfl, rfl⟩

theorem test_decode_load_move :
    decode (wordOfBytes 0x06 0x10 0xFC 0xFF) = .ok (.ld .r3 0xFFFC) ∧
    decode (wordOfBytes 0x0C 0x04 0x34 0x12) = .ok (.ldabs .r0 0x1234) ∧
    decode (wordOfBytes 0x13 0x04 0x08 0x00) = .ok (.mov .r0 .r1) := ⟨rfl, rfl, rfl⟩

theorem test_decode_io :
    decode (wordOfBytes 0x08 0x04 0xFF 0xFF) = .ok (.out .r0) ∧
    decode (wordOfBytes 0x0D 0x04 0x00 0x00) = .ok (.inp .r0) ∧
    decode (wordOfBytes 0x10 0x08 0x00 0x00) = .ok (.outr .r1) ∧
    decode (wordOfBytes 0x12 0x0C 0x00 0x00) = .ok (.outnum .r2) ∧
    decode (wordOfBytes 0x14 0x08 0x00 0x00) = .ok (.innum .r1) := ⟨rfl, rfl, rfl, rfl, rfl⟩

theorem test_decode_compare :
    decode (wordOfBytes 0x09 0x04 0x10 0x00) = .ok (.eq .r0 .r3) ∧
    decode (wordOfBytes 0x0A 0x04 0x08 0x00) = .ok (.lt .r0 .r1) ∧
    decode (wordOfBytes 0x0B 0x14 0x18 0x00) = .ok (.le .cmp .endr) := ⟨rfl, rfl, rfl⟩

theorem test_decode_stack :
    decode (wordOfBytes 0x15 0x08 0x00 0x00) = .ok (.push .r1) ∧
    decode (wordOfBytes 0x16 0x1C 0x00 0x00) = .ok (.pop .sp) := ⟨rfl, rfl⟩

/-- Vectors EN-2 and EN-5. -/
theorem test_decode_refuses :
    decode (wordOfBytes 0x19 0x04 0x08 0x00) = .error (.invalidOpcode 0x19) ∧
    decode (wordOfBytes 0x01 0x20 0x05 0x0C) = .error (.invalidRegister 0x20 1 0x01) := ⟨rfl, rfl⟩

/-- The opcode table's numbering (30_encoding.md R91, and a row's fixed byte alone). -/
theorem test_decodeTableWord :
    decodeTableWord 32 0x0C080401 = some (.add .r0 .r1 .r2) ∧ decodeTableWord 8 0x16 = some (.pop .ip) ∧
    decodeTableWord 8 0x19 = none := ⟨rfl, rfl, rfl⟩

/-! ### The named bytes of a word (20_memory.md R46) -/

theorem test_mixed_width :
    ((State.reset.writeReg .r0 0x11223344).mem.byte 5) = 0x33 ∧
    ((State.reset.writeReg .r0 0x11223344).mem.byte 4) = 0x44 := by decide

/-! ### One step of each instruction -/

/-- AR-2. -/
theorem test_add_wraps :
    nextHas (step (start 0x60 0x40 [0x01, 0x04, 0x08, 0x0C] [(.r0, 0xFFFFFFFF), (.r1, 1), (.r2, 7)]))
      (fun t => t.readReg .r2 == 0 && t.readReg .ip == 0x44 && t.readReg .cmp == 0) = true := by decide

/-- AR-5: a destination of IP, and then the advance. -/
theorem test_add_to_ip :
    nextHas (step (start 0x60 0x40 [0x01, 0x00, 0x04, 0x00] [(.r0, 0x10)])) (fun t => t.readReg .ip == 0x54) = true := by
  decide

/-- AR-8. -/
theorem test_sub_order :
    nextHas (step (start 0x60 0x40 [0x02, 0x04, 0x08, 0x0C] [(.r0, 5), (.r1, 7)]))
      (fun t => t.readReg .r2 == 0xFFFFFFFE) = true := by decide

/-- AR-14. -/
theorem test_mul_low_half :
    nextHas (step (start 0x60 0x40 [0x03, 0x04, 0x08, 0x0C] [(.r0, 0x12345678), (.r1, 0x10)]))
      (fun t => t.readReg .r2 == 0x23456780) = true := by decide

/-- AR-19: unsigned. -/
theorem test_div_unsigned :
    nextHas (step (start 0x60 0x40 [0x04, 0x04, 0x08, 0x0C] [(.r0, 0x80000000), (.r1, 0xFFFFFFFF), (.r2, 9)]))
      (fun t => t.readReg .r2 == 0) = true := by decide

/-- AR-22. -/
theorem test_div_by_zero :
    nextHas (step (start 0x60 0x24 [0x04, 0x04, 0x08, 0x0C] [(.r0, 5), (.r2, 0x77)]))
      (fun t => t.faultReport == some (.divisionByZero 0x24) && t.readReg .r2 == 0x77 && t.readReg .ip == 0x24) = true := by
  decide

/-- CT-1. -/
theorem test_jmp_back :
    nextHas (step (start 0x60 0x40 [0x05, 0xF8, 0xFF, 0x00] [])) (fun t => t.readReg .ip == 0x38) = true := by decide

/-- CT-5: the sign and the wrap. -/
theorem test_jmp_wraps :
    nextHas (step (start 0x60 0x40 [0x05, 0x00, 0x80, 0x00] [])) (fun t => t.readReg .ip == 0xFFFF8040) = true := by decide

/-- CT-9: any non-zero CMP. -/
theorem test_jeq_taken :
    nextHas (step (start 0x60 0x30 [0x0E, 0x10, 0x00, 0x00] [(.cmp, 0x80000000)])) (fun t => t.readReg .ip == 0x40) =
      true := by decide

/-- CT-8. -/
theorem test_jeq_not_taken :
    nextHas (step (start 0x60 0x30 [0x0E, 0x10, 0x00, 0x00] [])) (fun t => t.readReg .ip == 0x34) = true := by decide

/-- CT-10. -/
theorem test_jne_taken :
    nextHas (step (start 0x60 0x3C [0x0F, 0xF4, 0xFF, 0x00] [])) (fun t => t.readReg .ip == 0x30) = true := by decide

/-- CT-11. -/
theorem test_jne_not_taken :
    nextHas (step (start 0x60 0x3C [0x0F, 0xF4, 0xFF, 0x00] [(.cmp, 1)])) (fun t => t.readReg .ip == 0x40) = true := by
  decide

/-- CT-13. -/
theorem test_call :
    nextHas (step (start 0x70 0x28 [0x17, 0x0C, 0x00, 0x00] [(.sp, 0x60)]))
      (fun t => t.mem.word 0x60 == 0x28 && t.readReg .sp == 0x64 && t.readReg .ip == 0x34) = true := by decide

/-- CT-15. -/
theorem test_call_misaligned :
    nextHas (step (start 0x70 0x28 [0x17, 0x0C, 0x00, 0x00] [(.sp, 0x62)]))
      (fun t => t.faultReport == some (.misalignedWordAccess 0x62 4 0x28) && t.readReg .sp == 0x62 &&
        t.readReg .ip == 0x28) = true := by decide

/-- CT-14. -/
theorem test_ret :
    nextHas (step (withBytes (start 0x70 0x44 [0x18, 0, 0, 0] [(.sp, 0x64)]) 0x60 [0x28]))
      (fun t => t.readReg .sp == 0x60 && t.readReg .ip == 0x2C) = true := by decide

/-- CT-16. -/
theorem test_ret_wraps_and_faults :
    nextHas (step (start 0x70 0x44 [0x18, 0, 0, 0] [(.sp, 0)]))
      (fun t => t.faultReport == some (.outOfBounds 0xFFFFFFFC 4 0x44) && t.readReg .sp == 0xFFFFFFFC) = true := by decide

/-- CT-17, the first step. -/
theorem test_fin :
    nextHas (step (start 0x60 0x2C [0x07, 0, 0, 0] [])) (fun t => t.readReg .endr == 1 && t.readReg .ip == 0x2C) = true := by
  decide

/-- CT-17, the second step: Exit. -/
theorem test_exit :
    nextHas (step (start 0x60 0x2C [] [(.endr, 1), (.r0, 7)]))
      (fun t => t.readReg .ip == 0x20 && t.readReg .endr == 0 && t.readReg .r0 == 7 && t.ctl == .ready) = true := by decide

/-- CT-19. -/
theorem test_skip :
    nextHas (step (start 0x60 0x50 [0x11, 0xAA, 0xBB, 0xCC] [])) (fun t => t.readReg .ip == 0x54) = true := by decide

/-- LM-3: byte 1 of R0, little-endian. -/
theorem test_ld_register_byte :
    nextHas (step (start 0x60 0x28 [0x06, 0x10, 0xDD, 0xFF] [(.r0, 0x11223344)])) (fun t => t.readReg .r3 == 0x33) =
      true := by decide

/-- LM-5. -/
theorem test_ld_out_of_bounds :
    nextHas (step (start 0x30 0x28 [0x06, 0x10, 0x08, 0x00] []))
      (fun t => t.faultReport == some (.outOfBounds 0x30 1 0x28) && t.readReg .r3 == 0) = true := by decide

/-- LM-8. -/
theorem test_ldabs_zero_extends :
    nextHas (step (start 0x60 0x40 [0x0C, 0x04, 0xFF, 0xFF] [])) (fun t => t.readReg .r0 == 0x0000FFFF) = true := by decide

/-- LM-10. -/
theorem test_ldabs_ip :
    nextHas (step (start 0x60 0x40 [0x0C, 0x00, 0x00, 0x01] [])) (fun t => t.readReg .ip == 0x104) = true := by decide

/-- LM-12: source first. -/
theorem test_mov_order :
    nextHas (step (start 0x60 0x40 [0x13, 0x04, 0x08, 0x00] [(.r0, 21), (.r1, 3)]))
      (fun t => t.readReg .r1 == 21 && t.readReg .r0 == 21) = true := by decide

/-- LM-14: IP reads as the instruction's own address. -/
theorem test_mov_reads_ip :
    nextHas (step (start 0x60 0x38 [0x13, 0x00, 0x0C, 0x00] [])) (fun t => t.readReg .r2 == 0x38) = true := by decide

/-- CM-4. -/
theorem test_eq_cmp_itself :
    nextHas (step (start 0x60 0x40 [0x09, 0x14, 0x14, 0x00] [(.cmp, 7)])) (fun t => t.readReg .cmp == 1) = true := by decide

/-- CM-6: unsigned. -/
theorem test_lt_unsigned :
    nextHas (step (start 0x60 0x40 [0x0A, 0x04, 0x08, 0x00] [(.r0, 0xFFFFFFFF), (.r1, 1)]))
      (fun t => t.readReg .cmp == 0) = true := by decide

/-- CM-9 and CM-12. -/
theorem test_le :
    nextHas (step (start 0x60 0x40 [0x0B, 0x04, 0x08, 0x00] [(.r0, 5), (.r1, 5)])) (fun t => t.readReg .cmp == 1) = true ∧
    nextHas (step (start 0x60 0x40 [0x0B, 0x04, 0x08, 0x00] [(.r0, 0x80000000), (.r1, 0x7FFFFFFF)]))
      (fun t => t.readReg .cmp == 0) = true := by decide

/-- ST-8: SP is re-read. -/
theorem test_push_over_sp :
    nextHas (step (start 0x60 0x40 [0x15, 0x08, 0, 0] [(.r1, 0x500), (.sp, 28)])) (fun t => t.readReg .sp == 0x504) =
      true := by decide

/-- ST-7: no partial write. -/
theorem test_push_past_the_end :
    nextHas (step (start 0x66 0x40 [0x15, 0x08, 0, 0] [(.r1, 0x01020304), (.sp, 0x64)]))
      (fun t => t.faultReport == some (.outOfBounds 0x64 4 0x40) && t.mem.byte 0x64 == 0 && t.readReg .sp == 0x64) =
      true := by decide

/-- ST-9. -/
theorem test_pop_reads_sp_itself :
    nextHas (step (start 0x60 0x40 [0x16, 0x08, 0, 0] [(.sp, 32)]))
      (fun t => t.readReg .sp == 28 && t.readReg .r1 == 28) = true := by decide

/-- ST-4: the decrement stays. -/
theorem test_pop_misaligned :
    nextHas (step (start 0x60 0x40 [0x16, 0x08, 0, 0] [(.sp, 0x102)]))
      (fun t => t.faultReport == some (.misalignedWordAccess 0xFE 4 0x40) && t.readReg .sp == 0xFE) = true := by decide

/-- IO-1. -/
theorem test_out_string :
    nextHas (step (withBytes (start 0x30 0x24 [0x08, 0x04, 0, 0] [(.r0, 0x2C)]) 0x2C [0x48, 0x69]))
      (fun t => t.output == ['H', 'i'] && t.readReg .ip == 0x28) = true := by decide

/-- IO-3: the characters before the fault have been emitted. -/
theorem test_out_past_the_end :
    nextHas (step (withBytes (start 0x30 0x24 [0x08, 0x04, 0, 0] [(.r0, 0x2E)]) 0x2E [0x41, 0x42]))
      (fun t => t.output == ['A', 'B'] && t.faultReport == some (.outOfBounds 0x30 1 0x24)) = true := by decide

/-- IO-12: an empty line is skipped. -/
theorem test_in_skips_empty_line :
    nextHas (step { start 0x60 0x40 [0x0D, 0x04, 0, 0] [] with lines := [[], ['x']] })
      (fun t => t.readReg .r0 == 0x78 && t.lines == [] && t.inbuf == []) = true := by decide

/-- IO-14: WaitInput, and nothing but the latches of Fetch and Decode changes. -/
theorem test_in_waits :
    nextHas (step (start 0x60 0x40 [0x0D, 0x04, 0, 0] []))
      (fun t => t.ctl == .waitInput && t.mem == (start 0x60 0x40 [0x0D, 0x04, 0, 0] []).mem) = true := by decide

/-- IO-6 and IO-8. -/
theorem test_outr :
    nextHas (step (start 0x60 0x40 [0x10, 0x08, 0, 0] [(.r1, 0xD800)]))
      (fun t => t.faultReport == some (.invalidCharacter 0xD800 0x40) && t.output == []) = true ∧
    nextHas (step (start 0x60 0x40 [0x10, 0x08, 0, 0] [(.r1, 0x10FFFF)]))
      (fun t => t.output.map Char.toNat == [0x10FFFF]) = true := by decide

/-- IO-26 and IO-27. -/
theorem test_outnum :
    nextHas (step (start 0x60 0x40 [0x12, 0x0C, 0, 0] [])) (fun t => t.output == ['0']) = true ∧
    nextHas (step (start 0x60 0x40 [0x12, 0x0C, 0, 0] [(.r2, 0xFFFFFFFF)]))
      (fun t => t.output == ['4', '2', '9', '4', '9', '6', '7', '2', '9', '5']) = true := by decide

/-- IO-17. -/
theorem test_innum_leading_zeros :
    nextHas (step { start 0x60 0x40 [0x14, 0x04, 0, 0] [] with lines := [['0', '0', '7']] })
      (fun t => t.readReg .r0 == 7 && t.inbuf == []) = true := by decide

/-- IO-19. -/
theorem test_innum_too_large :
    nextHas (step { start 0x60 0x40 [0x14, 0x04, 0, 0] [] with
        lines := [['4', '2', '9', '4', '9', '6', '7', '2', '9', '6']] })
      (fun t => t.faultReport == some (.malformedNumericInput 0x40) && t.inbuf == [] && t.readReg .r0 == 0) = true := by
  decide

/-! ### The controller and the host -/

/-- EN-8 and EN-9. -/
theorem test_fetch_faults :
    nextHas (step (start 0x60 0x22 [] [])) (fun t => t.faultReport == some (.misalignedWordAccess 0x22 4 0x22)) = true ∧
    nextHas (step (start 0x60 0x60 [] [])) (fun t => t.faultReport == some (.outOfBounds 0x60 4 0x60)) = true := by decide

/-- EN-12: the run that execute() starts after reset with nothing placed fetches the word at 0 as an instruction. -/
theorem test_reset_run :
    (match State.reset.callExecute with
      | some s => nextHas (step s) (fun t => t.faultReport == some (.invalidOpcode 0 0))
      | none => false) = true := by decide

/-- 40_cycle.md R96: a second execute() is refused while the first run has not returned. -/
theorem test_second_call_refused : (State.reset.callExecute.bind State.callExecute) = none := by decide

/-- An instruction placed by withFetchWord is the one the next step runs. -/
theorem test_withFetchWord :
    nextHas (step (State.reset.withFetchWord 32 0x0007040C))
      (fun t => t.inst == .ldabs .r0 7 && t.readReg .r0 == 7) = true := by decide

/-- 44_io.md R132: CR kept, LF removed, a last line without LF is a line. -/
theorem test_lines :
    (((State.reset.supplyLine ['x', '\r']).receiveText ['y']).closeInput).lines = [['x', '\r'], ['y']] := by decide

/-! ### Witnesses: concrete data that meet the hypotheses of each statement -/

theorem witness_InvalidOpcodeIsRejected :
    ((0x00000000 : Word).extractLsb' 0 8 = 0) ∧ 0x19 ≤ ((0x00000019 : Word).extractLsb' 0 8).toNat ∧
    0x19 ≤ ((0x000000FF : Word).extractLsb' 0 8).toNat ∧
    ({ State.reset with ctl := .running .decode, fetched := 0x19 } : State).ctl = .running .decode ∧
    (let s := start 0x24 0x20 [0x19, 4, 8, 0] [];
      s.ctl = .running .check ∧ s.readReg .endr = 0 ∧ s.readReg .ip = 0x20 ∧ (0x20 : Word).toNat % 4 = 0 ∧
      (0x20 : Word).toNat + 4 ≤ s.memSize ∧ s.mem.word (0x20 : Word).toNat = 0x00080419) := by decide

theorem witness_FirstBadRegisterByteIsRejected :
    (formatOf (wordByte (wordOfBytes 0x01 0x20 0x05 0x0C) 0).toNat = some .RRR ∧ 1 ∈ Format.RRR.registerPositions ∧
      registerByte (wordByte (wordOfBytes 0x01 0x20 0x05 0x0C) 1) = false) ∧
    (registerByte (wordByte (wordOfBytes 0x01 0x04 0x08 0x1D) 3) = false ∧
      ∀ j ∈ Format.RRR.registerPositions, j < 3 → registerByte (wordByte (wordOfBytes 0x01 0x04 0x08 0x1D) j) = true) ∧
    ({ State.reset with ctl := .running .decode, fetched := wordOfBytes 0x01 0x20 0x05 0x0C } : State).ctl =
      .running .decode ∧
    (let s := start 0x24 0x20 [0x01, 0x20, 0x05, 0x0C] [];
      s.ctl = .running .check ∧ s.readReg .endr = 0 ∧ s.readReg .ip = 0x20 ∧ (0x20 : Word).toNat + 4 ≤ s.memSize ∧
      s.mem.word (0x20 : Word).toNat = wordOfBytes 0x01 0x20 0x05 0x0C) := by decide

theorem witness_UnusedBytesAreIgnored :
    formatOf (wordByte (wordOfBytes 0x05 0x04 0x00 0x00) 0).toNat = some .O ∧
    ∀ k ∈ Format.O.usedPositions, wordByte (wordOfBytes 0x05 0x04 0x00 0xFF) k = wordByte (wordOfBytes 0x05 0x04 0x00 0x00) k := by
  decide

theorem witness_WordsAreLittleEndian :
    loadWord (start 0x24 0x20 [0x11, 0x22, 0x33, 0x44] []) 0x20 = .ok 0x44332211 ∧
    (start 0x24 0x20 [0x11, 0x22, 0x33, 0x44] []).readReg .ip = 0x20 := ⟨rfl, rfl⟩

theorem witness_StoredWordReadsBack :
    (start 0x24 0x20 [] []).wf ∧ ∃ t, storeWord (start 0x24 0x20 [] []) 0x20 0xCAFEBABE = .ok t :=
  ⟨by decide, _, rfl⟩

theorem witness_RegistersAreMemoryWords :
    (start 0x20 0x20 [] []).wf ∧ ∃ t, storeWord (start 0x20 0x20 [] []) (BitVec.ofNat 32 Reg.sp.addr) 5 = .ok t :=
  ⟨by decide, _, rfl⟩

theorem witness_StepRunsTheDecodedInstruction :
    let s := start 0x24 0x20 [0x11, 0, 0, 0] []
    s.ctl = .running .check ∧ s.readReg .endr = 0 ∧ (s.readReg .ip).toNat % 4 = 0 ∧ (s.readReg .ip).toNat + 4 ≤ s.memSize ∧
      decode (s.mem.word (s.readReg .ip).toNat) = .ok .skip := ⟨rfl, by decide, by decide, by decide, rfl⟩

theorem witness_AdvanceAddsFourToIp :
    let s : Bool → State := fun b => { start 0x24 0x20 [] [] with ctl := .running .advance, adv := b }
    ((s true).wf ∧ (s true).ctl = .running .advance ∧ (s true).adv = true) ∧ ((s false).wf ∧ (s false).adv = false) := by
  decide

theorem witness_CheckWithEndSetExits :
    (start 0x24 0x20 [] [(.endr, 2)]).ctl = .running .check ∧ (start 0x24 0x20 [] [(.endr, 2)]).readReg .endr ≠ 0 := by decide

theorem witness_ExitResetsOnlyIpAndEnd :
    ({ start 0x24 0x20 [] [(.endr, 1)] with ctl := .running .exit } : State).wf ∧
    ({ start 0x24 0x20 [] [(.endr, 1)] with ctl := .running .exit } : State).ctl = .running .exit := by decide

theorem witness_BadFetchAddressFaults :
    ((start 0x24 0x21 [] []).readReg .endr = 0 ∧ ((start 0x24 0x21 [] []).readReg .ip).toNat % 4 ≠ 0) ∧
    (((start 0x26 0x24 [] []).readReg .ip).toNat % 4 = 0 ∧
      (start 0x26 0x24 [] []).memSize < ((start 0x26 0x24 [] []).readReg .ip).toNat + 4) := by decide

theorem witness_FaultedTakesNoStep :
    (raise (.divisionByZero 0x20) State.reset).ctl = .faulted (.divisionByZero 0x20) := by decide

theorem witness_OnlyFaultedStopsTheMachine : ∀ f, State.reset.ctl ≠ .faulted f := by
  intro f; simp [State.reset]

theorem witness_ReadyAcceptsOneCall :
    State.reset.ctl = .ready ∧ (start 0x24 0x20 [] []).ctl ≠ .ready ∧ (∃ t, State.reset.callExecute = some t) :=
  ⟨rfl, by decide, _, rfl⟩

theorem witness_WaitingHoldsUntilTheHostActs :
    let s : Instr → Bool → State := fun i b => { start 0x24 0x20 [] [] with ctl := .waitInput, inst := i, closed := b }
    ((s (.inp .r0) false).ctl = .waitInput ∧ (s (.inp .r0) false).inst = .inp .r0 ∧ (s (.inp .r0) false).inbuf = [] ∧
      (s (.inp .r0) false).lines = [] ∧ (s (.inp .r0) false).closed = false) ∧
    ((s (.innum .r0) true).inst = .innum .r0 ∧ (s (.innum .r0) true).lines = [] ∧ (s (.innum .r0) true).closed = true) := by
  decide

theorem witness_ImageFixesTheLaunchState : ∃ s, State.construct (List.replicate 32 0xAB) = some s := ⟨_, rfl⟩

theorem witness_ConstructionGivesAReadyMachine :
    (∃ s, State.construct (List.replicate 32 0) = some s) ∧ State.construct (List.replicate 31 0) = none :=
  ⟨⟨_, rfl⟩, rfl⟩

theorem witness_LinesEndAtTheLineFeed : State.reset.closed = false ∧ '\n' ∉ ['a', '\r'] := by decide

/-- For the statements whose only hypothesis on the state is s.wf: ADD, SUB, MUL, JMP, LDABS, MOV, EQ, LT, LE, FIN (its
second clause). The smallest memory, and State.reset's. -/
theorem witness_wf : (start 0x20 0x20 [] [(.r0, 1)]).wf ∧ State.reset.wf := ⟨by decide, reset_wf⟩

/-- For the clauses about a word and its fields, one word of each shape: ADD R0, R1, R2; LD R3, 0xFFFC; JNE 0xFFF4;
POP SP; RET. -/
theorem witness_word :
    (((0x0C080401 : Word).extractLsb' 0 8 = 0x01 ∧ (0x0C080401 : Word).extractLsb' 8 8 = Reg.r0.code) ∧
      (0x0C080401 : Word).extractLsb' 16 8 = Reg.r1.code ∧ (0x0C080401 : Word).extractLsb' 24 8 = Reg.r2.code) ∧
    ((0xFFFC1006 : Word).extractLsb' 0 8 = 0x06 ∧ (0xFFFC1006 : Word).extractLsb' 8 8 = Reg.r3.code ∧
      (0xFFFC1006 : Word).extractLsb' 16 16 = 0xFFFC) ∧
    ((0x00FFF40F : Word).extractLsb' 0 8 = 0x0F ∧ (0x00FFF40F : Word).extractLsb' 8 16 = 0xFFF4) ∧
    ((0x00001C16 : Word).extractLsb' 0 8 = 0x16 ∧ (0x00001C16 : Word).extractLsb' 8 8 = Reg.sp.code) ∧
    (0xFFFFFF18 : Word).extractLsb' 0 8 = 0x18 := by decide

theorem witness_DivTruncatesOrFaultsOnZero :
    (start 0x20 0x20 [] [(.r1, 3)]).wf ∧ (start 0x20 0x20 [] [(.r1, 3)]).readReg .r1 ≠ 0 ∧
    (start 0x20 0x20 [] [(.r1, 3)]).readReg .r0 = 0 := by decide

/-- Both clauses. -/
theorem witness_JeqJumpsWhenCmpIsNotZero :
    ((start 0x20 0x20 [] [(.cmp, 1)]).wf ∧ (start 0x20 0x20 [] [(.cmp, 1)]).readReg .cmp ≠ 0) ∧
    ((start 0x20 0x20 [] []).wf ∧ (start 0x20 0x20 [] []).readReg .cmp = 0) := by decide

theorem witness_JneJumpsWhenCmpIsZero :
    ((start 0x20 0x20 [] []).wf ∧ (start 0x20 0x20 [] []).readReg .cmp = 0) ∧
    ((start 0x20 0x20 [] [(.cmp, 2)]).wf ∧ (start 0x20 0x20 [] [(.cmp, 2)]).readReg .cmp ≠ 0) := by decide

/-- CALL and PUSH: SP at the last slot, at SP's own word, at IP's word, misaligned, and one slot too far. -/
theorem witness_CallPushesItsAddressAndJumps :
    let s : Word → State := fun a => start 0x24 0x20 [] [(.sp, a)]
    (s 0x20).wf ∧ (s 28).wf ∧ (s 0).wf ∧ ((s 0x20).readReg .sp).toNat % 4 = 0 ∧
    ((s 0x20).readReg .sp).toNat + 4 ≤ (s 0x20).memSize ∧ ((s 0x21).readReg .sp).toNat % 4 ≠ 0 ∧
    (((s 0x24).readReg .sp).toNat % 4 = 0 ∧ (s 0x24).memSize < ((s 0x24).readReg .sp).toNat + 4) := by decide

theorem witness_PushStoresAtSpAndIncrements :
    let s : Word → State := fun a => start 0x24 0x20 [] [(.sp, a), (.r0, 7)]
    (s 0x20).wf ∧ (s 0x20).readReg .sp = 0x20 ∧ (s 0x20).readReg .r0 = 7 ∧ (0x20 : Word).toNat + 4 ≤ (s 0x20).memSize ∧
    (s 28).readReg .sp = 28 ∧ (s 28).readReg .sp % 4 = 0 ∧ (s 0x21).readReg .sp % 4 ≠ 0 ∧
    (s 0x24).memSize < ((s 0x24).readReg .sp).toNat + 4 := by decide

/-- RET and POP: the slot below SP is the last one, SP's own word, misaligned, and (SP = 0) outside memory. -/
theorem witness_RetPopsIpAndAdvances :
    let s : Word → State := fun a => start 0x24 0x20 [] [(.sp, a)]
    (s 0x24).wf ∧ (s 0x24).readReg .sp - 4 = 0x20 ∧ (s 0x20).readReg .sp - 4 = 28 ∧
    ((s 0x22).readReg .sp - 4).toNat % 4 ≠ 0 ∧
    (((s 0).readReg .sp - 4).toNat % 4 = 0 ∧ (s 0).memSize < ((s 0).readReg .sp - 4).toNat + 4) := by decide

theorem witness_PopDecrementsAndLoads :
    let s : Word → State := fun a => start 0x24 0x20 [] [(.sp, a)]
    ((s 0x24).wf ∧ (s 0x24).readReg .sp - 4 = 0x20 ∧ (0x20 : Word).toNat + 4 ≤ (s 0x24).memSize) ∧
    (s 0x20).readReg .sp - 4 = 28 ∧ (s 0x21).readReg .sp - 4 = 0x1D ∧
    ((s 0x28).readReg .sp - 4 = 0x24 ∧ (s 0x28).memSize < (0x24 : Word).toNat + 4) := by decide

theorem witness_FinEndsTheRun :
    let s := start 0x24 0x20 [0x07, 0, 0, 0] []
    s.wf ∧ s.ctl = .running .check ∧ s.readReg .endr = 0 ∧ (s.readReg .ip).toNat % 4 = 0 ∧
      (s.readReg .ip).toNat + 4 ≤ s.memSize ∧ decode (s.mem.word (s.readReg .ip).toNat) = .ok .fin :=
  ⟨by decide, rfl, by decide, by decide, by decide, rfl⟩

theorem witness_LdLoadsTheByteAtIpPlusOffset :
    let s := start 0x24 0x20 [] []
    s.wf ∧ (((0x23 : Word).toNat : Int) = ((s.readReg .ip).toNat + (3 : BitVec 16).toInt) % 2 ^ 32 ∧ (0x23 : Word).toNat < s.memSize) ∧
    (((0xFFFFFFFF : Word).toNat : Int) = ((s.readReg .ip).toNat + (0xFFDF : BitVec 16).toInt) % 2 ^ 32 ∧
      s.memSize ≤ (0xFFFFFFFF : Word).toNat) := by decide

/-- With `u` the machine PUSH leaves. -/
theorem witness_PushThenPopGivesTheValueBack :
    let s := start 0x24 0x20 [] [(.sp, 0x20)]
    s.wf ∧ (s.readReg .sp).toNat % 4 = 0 ∧ 32 ≤ (s.readReg .sp).toNat ∧ (s.readReg .sp).toNat + 4 ≤ s.memSize ∧
      nextHas (exec (.push .r0) s) (fun t => decide t.wf) = true := by decide

/-- With `u` the machine CALL leaves. -/
theorem witness_CallThenRetResumesAfterTheCall :
    let s := start 0x24 0x20 [] [(.sp, 0x20)]
    s.wf ∧ 32 ≤ (s.readReg .sp).toNat ∧ (s.readReg .sp).toNat % 4 = 0 ∧ (s.readReg .sp).toNat + 4 ≤ s.memSize ∧
      nextHas (exec (.call 4) s) (fun t => decide t.wf) = true := by decide

/-- A string of two bytes at the top of memory, and one that runs past it. -/
theorem witness_OutEmitsTheString :
    let s := withBytes (start 0x24 0x20 [] [(.r0, 0x20)]) 0x20 [0x48, 0x69]
    let u := withBytes (start 0x22 0x20 [] [(.r0, 0x20)]) 0x20 [0x48, 0x69]
    ((∀ k, k < 2 → ((s.readReg .r0).toNat + k) % 2 ^ 32 < s.memSize ∧
        s.mem.byte (((s.readReg .r0).toNat + k) % 2 ^ 32) = [0x48, 0x69].getD k 0 ∧ ([0x48, 0x69] : List Byte).getD k 0 ≠ 0) ∧
      (0x22 : Word).toNat = ((s.readReg .r0).toNat + 2) % 2 ^ 32 ∧ (0x22 : Word).toNat < s.memSize ∧
      s.mem.byte (0x22 : Word).toNat = 0) ∧
    ((∀ k, k < 2 → ((u.readReg .r0).toNat + k) % 2 ^ 32 < u.memSize ∧
        u.mem.byte (((u.readReg .r0).toNat + k) % 2 ^ 32) = [0x48, 0x69].getD k 0) ∧
      u.memSize ≤ (0x22 : Word).toNat) := by decide

/-- A list of bytes that lists every address from `a` on, all 1. -/
def onesFrom : Nat → Nat → Memory
  | _, 0 => []
  | a, n + 1 => (a, 1) :: onesFrom (a + 1) n

theorem onesFrom_byte (a n x : Nat) (h : a ≤ x) (hx : x < a + n) : (onesFrom a n).byte x = 1 := by
  induction n generalizing a with
  | zero => omega
  | succ n ih =>
    simp only [onesFrom, Memory.byte]
    by_cases h1 : x = a
    · simp [h1]
    · simp [show ¬ x < a by omega, h1, ih (a + 1) (by omega) (by omega)]

/-- The machine of 2^32 bytes, every one of them 1. -/
theorem witness_EndlessOutGoesOn :
    ∃ s : State, ∀ a, a < 2 ^ 32 → a < s.memSize ∧ s.mem.byte a ≠ 0 := by
  refine ⟨{ State.reset with mem := onesFrom 0 (2 ^ 32) }, fun a ha => ⟨ha, ?_⟩⟩
  have := onesFrom_byte 0 (2 ^ 32) a (Nat.zero_le a) (by omega)
  simp only [this]
  decide

theorem witness_InReadsOneCharacter :
    let s : State := { start 0x20 0x20 [] [] with inbuf := ['a', 'b'], lines := [['c']] }
    let u : State := { start 0x20 0x20 [] [] with lines := [[], ['x'], ['y']] }
    (s.wf ∧ s.inbuf = 'a' :: ['b'] ∧ s.lines = [['c']]) ∧
    (u.wf ∧ u.inbuf = [] ∧ u.lines = List.replicate 1 [] ++ ('x' :: []) :: [['y']]) := by decide

/-- The text of 2^32 - 1. -/
def largest : List Char := ['4', '2', '9', '4', '9', '6', '7', '2', '9', '5']

/-- The largest number on a line, and a buffer left by an IN. -/
theorem witness_InnumReadsTheBufferedNumber :
    let s : State := { start 0x20 0x20 [] [] with lines := [largest, ['y']] }
    let u : State := { start 0x20 0x20 [] [] with inbuf := ['1', '2'] }
    (s.wf ∧ s.inbuf = [] ∧ s.lines = largest :: [['y']]) ∧ (u.wf ∧ u.inbuf = ['1', '2'] ∧ u.inbuf ≠ []) := by decide

/-- The largest number is a valid decimal; one digit more, and an empty line, are not. -/
theorem witness_InnumReadsTheBufferedNumber_texts :
    (largest ≠ [] ∧ (∀ c ∈ largest, 0x30 ≤ c.toNat ∧ c.toNat ≤ 0x39)) ∧
    largest.foldl (fun m c => 10 * m + (c.toNat - 0x30)) 0 = 2 ^ 32 - 1 ∧
    ¬(largest ++ ['0']).foldl (fun m c => 10 * m + (c.toNat - 0x30)) 0 < 2 ^ 32 ∧ ¬(([] : List Char) ≠ []) :=
  ⟨⟨by simp [largest], by simp [largest]⟩, by decide +kernel, by decide +kernel, by simp⟩

theorem witness_InputWithoutALineWaitsOrFaults :
    let s : Bool → State := fun b => { start 0x20 0x20 [] [] with closed := b }
    ((s true).inbuf = [] ∧ (s true).lines = List.replicate 0 [] ∧ (s true).closed = true) ∧
    ((s false).lines = [] ∧ (s false).closed = false) ∧
    ({ s false with lines := [[], []] } : State).lines = List.replicate 2 [] := by decide

/-- The boundaries of the scalar values. -/
theorem witness_OutrEmitsOneScalarValue :
    let v : Word → Word := fun x => (start 0x20 0x20 [] [(.r1, x)]).readReg .r1
    (v 0xD7FF).toNat < 0xD800 ∧ (0xDFFF < (v 0xE000).toNat ∧ (v 0x10FFFF).toNat ≤ 0x10FFFF) ∧
    (0xD800 ≤ (v 0xD800).toNat ∧ (v 0xDFFF).toNat ≤ 0xDFFF) ∧ 0x10FFFF < (v 0x110000).toNat := by decide

/-- A machine in a run that meets the invariant and whose step answers a next state. -/
theorem witness_StepKeepsTheInvariant :
    (start 0x24 0x20 [0x11, 0, 0, 0] []).inv ∧ ∃ t, step (start 0x24 0x20 [0x11, 0, 0, 0] []) = .next t :=
  ⟨⟨by decide, (by intro f h; exact nomatch (show Ctl.running .check = .faulted f from h)),
    (by intro h; exact absurd h (by decide)), by decide⟩, _, rfl⟩

/-- A move of the host of each kind, from machines that meet the invariant's parts. -/
theorem witness_HostMovesLeaveMemoryAsItWas :
    (∃ t, State.reset.callExecute = some t ∧ HostMove State.reset t) ∧
    HostMove State.reset (State.reset.receiveChar 'x') ∧ HostMove State.reset State.reset.closeInput :=
  ⟨⟨_, rfl, .execute _ rfl⟩, .character 'x', .close⟩

/-- The step of the machine after reset answers a next state too. -/
theorem witness_StepKeepsSizeAndEntryPoint : ∃ t, step State.reset = .next t := ⟨_, rfl⟩

theorem witness_ResetIsTheZeroImage : 32 ≤ 32 ∧ (32 : Nat) ≤ 2 ^ 32 := by decide

theorem witness_OnlyIoInstructionsTouchTheConsole :
    nextHas (exec .skip State.reset) (fun _ => true) = true ∧
    ∀ r, Instr.skip ≠ .out r ∧ Instr.skip ≠ .inp r ∧ Instr.skip ≠ .outr r ∧ Instr.skip ≠ .outnum r ∧ Instr.skip ≠ .innum r :=
  ⟨by decide, by intro r; simp⟩

theorem witness_OnlyPushAndCallStoreOutsideTheRegisters :
    State.reset.wf ∧ nextHas (exec .fin State.reset) (fun _ => true) = true ∧ (∀ r, Instr.fin ≠ .push r) ∧
      (∀ o, Instr.fin ≠ .call o) := ⟨reset_wf, by decide, by intro r; simp, by intro o; simp⟩

theorem witness_ExecuteFaultsAreThoseOfTheTable :
    nextHas (exec (.div .r0 .r1 .r2) State.reset) (fun t => t.ctl == .faulted (.divisionByZero 0)) = true := by decide

theorem witness_RestartBeginsAtTheEntryPoint :
    let s := start 0x24 0x20 [] [(.endr, 1)]
    s.wf ∧ s.ctl = .running .check ∧ s.readReg .endr ≠ 0 := by decide

end Sys2Proof.Tests
end

section

namespace Sys2Proof.Machine

/-! ### What a readable word holds (20_memory.md R45) -/

/-- A word load succeeds exactly when the address is aligned and the word lies in memory, and then it gives that word. -/
theorem loadWord_eq_ok_iff {s : State} {a v : Word} :
    loadWord s a = .ok v ↔ a.toNat % 4 = 0 ∧ a.toNat + 4 ≤ s.memSize ∧ s.mem.word a.toNat = v := by
  by_cases ha : a.toNat % 4 = 0
  · by_cases hn : a.toNat + 4 ≤ s.memSize
    · simp [loadWord_ok ha hn, ha, hn]
    · simp [loadWord_outOfBounds ha (Nat.not_le.1 hn), hn]
  · simp [loadWord_misaligned ha, ha]

/-- Byte `k` of the word at `a` is the byte at `a + k`. -/
theorem Memory.wordSlice_word (m : Memory) (a : Nat) {k : Nat} (hk : k < 4) :
    wordSlice (m.word a) k = m.byte (a + k) := by
  obtain ⟨h0, h1, h2, h3⟩ := wordSlice_bytes (m.byte (a + 3)) (m.byte (a + 2)) (m.byte (a + 1)) (m.byte a)
  interval_cases k
  · exact h0
  · exact h1
  · exact h2
  · exact h3

/-- The 16-bit field at byte `k` of the word at `a` is little-endian in the two bytes at `a + k`. -/
theorem Memory.halfAt_word_toNat (m : Memory) (a : Nat) {k : Nat} (hk : k ≤ 2) :
    (halfAt (m.word a) k).toNat = (m.byte (a + k)).toNat + (m.byte (a + (k + 1))).toNat * 2 ^ 8 := by
  rw [halfAt, BitVec.extractLsb'_toNat, Memory.word_toNat, Nat.shiftRight_eq_div_pow]
  interval_cases k <;> simp only [Nat.add_zero, Nat.reduceAdd] <;> omega

/-- Fetch takes the word that a load at IP gives (40_cycle.md R98). -/
theorem fetchStage_fetched {s : State} {v : Word} (h : loadWord s (s.readReg .ip) = .ok v) :
    (fetchStage s).fetched = v := by
  obtain ⟨ha, hn, hv⟩ := loadWord_eq_ok_iff.1 h
  rw [fetchStage_ok ha hn]
  exact hv

/-- Settles O7: the word's value is that of its four bytes, and its fields and the fetched word are read off it. -/
theorem wordsAreLittleEndian : Obligations.WordsAreLittleEndian := by
  intro s a v h
  have hfetch : s.readReg .ip = a → (fetchStage s).fetched = v := by
    rintro rfl
    exact fetchStage_fetched h
  obtain ⟨-, -, rfl⟩ := loadWord_eq_ok_iff.1 h
  have hbyte := s.mem.wordSlice_word a.toNat (k := 0) (by decide)
  have hhalf1 := s.mem.halfAt_word_toNat a.toNat (k := 1) (by decide)
  have hhalf2 := s.mem.halfAt_word_toNat a.toNat (k := 2) (by decide)
  exact ⟨s.mem.word_toNat a.toNat, hbyte, hhalf1, hhalf2, hfetch⟩

end Sys2Proof.Machine
end

section

namespace Sys2Proof.Machine

/-! ### What Exit writes, and what it leaves (40_cycle.md R104, R110) -/

theorem step_exit {s : State} (h : s.ctl = .running .exit) : step s = .next (exitStage s) := by
  simp only [step, h]

/-- After its write of IP, Exit writes END alone; the move to Ready touches no memory. -/
theorem onlyWrites_exitStage {s : State} (h : s.wf) :
    onlyWrites (s.writeReg .ip s.initialIp) (exitStage s) .endr 0 :=
  onlyWrites_writeReg (State.writeReg_wf h .ip s.initialIp) .endr 0

theorem exitStage_endr {s : State} (h : s.wf) : (exitStage s).readReg .endr = 0 :=
  (onlyWrites_exitStage h).1

theorem exitStage_ip {s : State} (h : s.wf) : (exitStage s).readReg .ip = s.initialIp := by
  obtain ⟨hip, -⟩ := onlyWrites_writeReg h .ip s.initialIp
  obtain ⟨-, hrest, -⟩ := onlyWrites_exitStage h
  exact (hrest .ip (by decide)).trans hip

theorem exitStage_readReg_other {s : State} (h : s.wf) {q : Reg} (hip : q ≠ .ip) (hend : q ≠ .endr) :
    (exitStage s).readReg q = s.readReg q := by
  obtain ⟨-, hbutIp, -⟩ := onlyWrites_writeReg h .ip s.initialIp
  obtain ⟨-, hbutEnd, -⟩ := onlyWrites_exitStage h
  exact (hbutEnd q hend).trans (hbutIp q hip)

/-- A byte outside IP's word (0 to 3) and END's word (24 to 27) outlives Exit. -/
theorem exitStage_byte {s : State} (h : s.wf) {a : Nat} (hip : 4 ≤ a) (hend : a < 24 ∨ 28 ≤ a) :
    (exitStage s).mem.byte a = s.mem.byte a := by
  obtain ⟨-, -, hbutIp, -⟩ := onlyWrites_writeReg h .ip s.initialIp
  obtain ⟨-, -, hbutEnd, -⟩ := onlyWrites_exitStage h
  exact (hbutEnd a hend).trans (hbutIp a (.inr hip))

theorem exitStage_sameLatches (s : State) : sameLatches s (exitStage s) :=
  ⟨rfl, rfl, rfl, rfl, rfl⟩

theorem exitStage_sameConsole (s : State) : sameConsole s (exitStage s) :=
  ⟨⟨rfl, rfl, rfl, rfl⟩, rfl⟩

/-- Settles O13: the step is Exit's two register writes, whose words do not overlap, and the move to Ready. -/
theorem exitResetsOnlyIpAndEnd : Obligations.ExitResetsOnlyIpAndEnd := by
  intro s hwf hctl
  exact ⟨exitStage s, step_exit hctl, exitStage_ip hwf, exitStage_endr hwf, rfl,
    fun _ hip hend => exitStage_readReg_other hwf hip hend, fun _ hip hend => exitStage_byte hwf hip hend,
    exitStage_sameLatches s, exitStage_sameConsole s, rfl⟩

end Sys2Proof.Machine
end

section

namespace Sys2Proof

/-! ### Decoding a word of format RRR from its register bytes (30_encoding.md R73, R79, R89) -/

theorem decodeReg_of_code {w : Word} {k : Nat} {r : Reg} (h : byteAt w k = r.code) : decodeReg w k = .ok r := by
  rw [decodeReg, h, Reg.ofByte_code]

theorem decodeRRR_of_codes (mk : Reg → Reg → Reg → Instr) {w : Word} {a b c : Reg} (ha : byteAt w 1 = a.code)
    (hb : byteAt w 2 = b.code) (hc : byteAt w 3 = c.code) : decodeRRR mk w = .ok (mk a b c) := by
  simp only [decodeRRR, decodeReg_of_code ha, decodeReg_of_code hb, decodeReg_of_code hc]

theorem decode_add {w : Word} (h : byteAt w 0 = 0x01) : decode w = decodeRRR .add w := by
  rw [decode, h]; rfl

theorem decode_sub {w : Word} (h : byteAt w 0 = 0x02) : decode w = decodeRRR .sub w := by
  rw [decode, h]; rfl

theorem decode_mul {w : Word} (h : byteAt w 0 = 0x03) : decode w = decodeRRR .mul w := by
  rw [decode, h]; rfl

end Sys2Proof

namespace Sys2Proof.Machine

/-! ### What ADD, SUB and MUL execute (41_arithmetic.md R112 to R114) -/

theorem exec_add (a b c : Reg) (s : State) :
    exec (.add a b c) s = complete true (s.writeReg c (s.readReg a + s.readReg b)) := rfl

theorem exec_sub (a b c : Reg) (s : State) :
    exec (.sub a b c) s = complete true (s.writeReg c (s.readReg a - s.readReg b)) := rfl

theorem exec_mul (a b c : Reg) (s : State) :
    exec (.mul a b c) s = complete true (s.writeReg c (s.readReg a * s.readReg b)) := rfl

/-- An Execute that ends with one register write changes that register, the advance result and the control state only
(40_cycle.md R101, R102). -/
theorem complete_writeReg {s : State} (h : s.wf) (adv : Bool) (r : Reg) (v : Word) :
    ∃ t, complete adv (s.writeReg r v) = .next t ∧ ended adv t ∧ onlyWrites s t r v :=
  ⟨_, rfl, ended_endExecute adv _, (onlyWrites_endExecute adv).2 (onlyWrites_writeReg h r v)⟩

/-! ### Word arithmetic as exact arithmetic modulo 2^32 (41_arithmetic.md R112 to R114) -/

theorem ofNat_add_mod (x y : Word) : BitVec.ofNat 32 ((x.toNat + y.toNat) % 2 ^ 32) = x + y := by
  rw [← BitVec.toNat_add, BitVec.ofNat_toNat, BitVec.setWidth_eq]

theorem ofNat_mul_mod (x y : Word) : BitVec.ofNat 32 ((x.toNat * y.toNat) % 2 ^ 32) = x * y := by
  rw [← BitVec.toNat_mul, BitVec.ofNat_toNat, BitVec.setWidth_eq]

theorem ofInt_sub_mod (x y : Word) : BitVec.ofInt 32 ((x.toNat - y.toNat : Int) % 2 ^ 32) = x - y := by
  apply BitVec.eq_of_toNat_eq
  rw [BitVec.toNat_ofInt, BitVec.toNat_sub]
  have hx := x.isLt
  have hy := y.isLt
  omega

/-- Settles O24: the three register bytes name the operands, and Execute ends with one write of the sum. -/
theorem addWrapsAndWritesOnlyItsDestination : Obligations.AddWrapsAndWritesOnlyItsDestination := by
  intro a b c
  refine ⟨fun w hop ha hb hc => (decode_add hop).trans (decodeRRR_of_codes .add ha hb hc), fun s hwf => ?_⟩
  rw [exec_add, ofNat_add_mod]
  exact complete_writeReg hwf true c _

/-- Settles O25: the three register bytes name the operands, and Execute ends with one write of the difference. -/
theorem subWrapsAndWritesOnlyItsDestination : Obligations.SubWrapsAndWritesOnlyItsDestination := by
  intro a b c
  refine ⟨fun w hop ha hb hc => (decode_sub hop).trans (decodeRRR_of_codes .sub ha hb hc), fun s hwf => ?_⟩
  rw [exec_sub, ofInt_sub_mod]
  exact complete_writeReg hwf true c _

/-- Settles O26: the three register bytes name the operands, and Execute ends with one write of the product. -/
theorem mulKeepsTheLowHalfAndWritesOnlyItsDestination :
    Obligations.MulKeepsTheLowHalfAndWritesOnlyItsDestination := by
  intro a b c
  refine ⟨fun w hop ha hb hc => (decode_mul hop).trans (decodeRRR_of_codes .mul ha hb hc), fun s hwf => ?_⟩
  rw [exec_mul, ofNat_mul_mod]
  exact complete_writeReg hwf true c _

end Sys2Proof.Machine
end

section

namespace Sys2Proof

/-! ### Decoding a word with a register byte and a 16-bit field (30_encoding.md R75, R76, R89) -/

theorem decodeRH_of_code (mk : Reg → BitVec 16 → Instr) {w : Word} {r : Reg} (h : byteAt w 1 = r.code) :
    decodeRH mk w = .ok (mk r (halfAt w 2)) := by
  simp only [decodeRH, decodeReg_of_code h]

theorem decode_ldabs {w : Word} (h : byteAt w 0 = 0x0C) : decode w = decodeRH .ldabs w := by
  rw [decode, h]; rfl

end Sys2Proof

namespace Sys2Proof.Machine

/-! ### What LDABS executes (43_load_move.md R126) -/

theorem zextHalf_eq_ofNat (v : BitVec 16) : zextHalf v = BitVec.ofNat 32 v.toNat :=
  (BitVec.ofNat_toNat 32 v).symm

theorem exec_ldabs (r : Reg) (v : BitVec 16) (s : State) :
    exec (.ldabs r v) s = complete true (s.writeReg r (BitVec.ofNat 32 v.toNat)) := by
  rw [← zextHalf_eq_ofNat]
  rfl

/-- Settles O36: byte 1 names the register, bytes 2 and 3 are the immediate, and Execute ends with one write of it. -/
theorem ldabsLoadsItsImmediate : Obligations.LdabsLoadsItsImmediate := by
  intro r v
  constructor
  · rintro w hop hr rfl
    exact (decode_ldabs hop).trans (decodeRH_of_code .ldabs hr)
  · intro s hwf
    rw [exec_ldabs]
    exact complete_writeReg hwf true r _

end Sys2Proof.Machine
end

section

namespace Sys2Proof.Machine

/-! ### What a construction gives (70_reset_and_hazards.md R179 to R181) -/

/-- The whole result of an accepted construction: an image of admissible length, and `State.reset` but for the fields
that the image fixes. -/
theorem construct_eq_some_iff {image : List Byte} {s : State} :
    State.construct image = some s ↔
      Config.minMemSize ≤ image.length ∧ image.length ≤ Config.addressSpace ∧
        s = { State.reset with
          mem := Memory.ofImageFrom 0 image
          memSize := image.length
          initialIp := (Memory.ofImageFrom 0 image).word 0 } := by
  simp only [State.construct]
  split
  · rename_i hbad
    constructor
    · exact fun h => absurd h (by simp)
    · rintro ⟨hmin, hmax, -⟩
      omega
  · rename_i hok
    obtain ⟨hmin, hmax⟩ := not_or.1 hok
    constructor
    · intro h
      exact ⟨Nat.not_lt.1 hmin, Nat.not_lt.1 hmax, (Option.some.inj h).symm⟩
    · rintro ⟨-, -, rfl⟩
      rfl

theorem construct_memSize {image : List Byte} {s : State} (h : State.construct image = some s) :
    s.memSize = image.length := by
  obtain ⟨-, -, rfl⟩ := construct_eq_some_iff.1 h
  rfl

/-- The latch reads the word at IP's own address, so it is IP's value (10_state.md R34). -/
theorem construct_initialIp {image : List Byte} {s : State} (h : State.construct image = some s) :
    s.initialIp = s.readReg .ip := by
  obtain ⟨-, -, rfl⟩ := construct_eq_some_iff.1 h
  rfl

/-- Past the image's end both sides are 0, the byte that an unlisted address reads as (log entry 2). -/
theorem construct_byte {image : List Byte} {s : State} (h : State.construct image = some s) (k : Nat) :
    s.mem.byte k = image.getD k 0 := by
  obtain ⟨-, -, rfl⟩ := construct_eq_some_iff.1 h
  have hbyte := Memory.byte_ofImageFrom (a := 0) (bs := image) k
  rwa [Nat.zero_add] at hbyte

/-- Settles O19: memory reads as the image, and a register is the little-endian word of memory at its address. -/
theorem imageFixesTheLaunchState : Obligations.ImageFixesTheLaunchState := by
  intro image s h
  refine ⟨construct_memSize h, fun k _ => construct_byte h k, fun r => ?_, construct_initialIp h⟩
  rw [State.readReg, Memory.word_toNat]
  simp only [construct_byte h]

end Sys2Proof.Machine
end

section

namespace Sys2Proof

/-! ### The decoder, format by format (30_encoding.md R69 to R76, R84, R89) -/

/-- The format decoder, with its constructor, that an instruction's opcode selects (30_encoding.md R84). -/
def Instr.reader : Instr → Word → Except DecodeError Instr
  | .add _ _ _ => decodeRRR .add
  | .sub _ _ _ => decodeRRR .sub
  | .mul _ _ _ => decodeRRR .mul
  | .div _ _ _ => decodeRRR .div
  | .jmp _ => decodeO .jmp
  | .ld _ _ => decodeRH .ld
  | .fin => fun _ => .ok .fin
  | .out _ => decodeR .out
  | .eq _ _ => decodeRR .eq
  | .lt _ _ => decodeRR .lt
  | .le _ _ => decodeRR .le
  | .ldabs _ _ => decodeRH .ldabs
  | .inp _ => decodeR .inp
  | .jeq _ => decodeO .jeq
  | .jne _ => decodeO .jne
  | .outr _ => decodeR .outr
  | .skip => fun _ => .ok .skip
  | .outnum _ => decodeR .outnum
  | .mov _ _ => decodeRR .mov
  | .innum _ => decodeR .innum
  | .push _ => decodeR .push
  | .pop _ => decodeR .pop
  | .call _ => decodeO .call
  | .ret => fun _ => .ok .ret

/-- The operand fields of `w` hold the operands of the instruction (30_encoding.md R70 to R76). -/
def Instr.operandsIn (w : Word) : Instr → Prop
  | .add a b c | .sub a b c | .mul a b c | .div a b c =>
    byteAt w 1 = a.code ∧ byteAt w 2 = b.code ∧ byteAt w 3 = c.code
  | .jmp o | .jeq o | .jne o | .call o => halfAt w 1 = o
  | .ld r h | .ldabs r h => byteAt w 1 = r.code ∧ halfAt w 2 = h
  | .fin | .skip | .ret => True
  | .out r | .inp r | .outr r | .outnum r | .innum r | .push r | .pop r => byteAt w 1 = r.code
  | .eq a b | .lt a b | .le a b | .mov a b => byteAt w 1 = a.code ∧ byteAt w 2 = b.code

/-- The opcode byte alone selects the format decoder. -/
theorem decode_of_opcode (i : Instr) {w : Word} (h : byteAt w 0 = i.opcode) : decode w = i.reader w := by
  cases i <;> rw [decode, h] <;> rfl

theorem decodeR_of_code (mk : Reg → Instr) {w : Word} {a : Reg} (ha : byteAt w 1 = a.code) :
    decodeR mk w = .ok (mk a) := by
  simp only [decodeR, decodeReg_of_code ha]

theorem decodeRR_of_codes (mk : Reg → Reg → Instr) {w : Word} {a b : Reg} (ha : byteAt w 1 = a.code)
    (hb : byteAt w 2 = b.code) : decodeRR mk w = .ok (mk a b) := by
  simp only [decodeRR, decodeReg_of_code ha, decodeReg_of_code hb]

theorem Instr.reader_of_operandsIn (i : Instr) {w : Word} (h : i.operandsIn w) : i.reader w = .ok i := by
  cases i with
  | add | sub | mul | div =>
    obtain ⟨ha, hb, hc⟩ := h
    exact decodeRRR_of_codes _ ha hb hc
  | jmp | jeq | jne | call =>
    cases h
    rfl
  | ld | ldabs =>
    obtain ⟨hr, rfl⟩ := h
    exact decodeRH_of_code _ hr
  | fin | skip | ret => rfl
  | out | inp | outr | outnum | innum | push | pop => exact decodeR_of_code _ h
  | eq | lt | le | mov =>
    obtain ⟨ha, hb⟩ := h
    exact decodeRR_of_codes _ ha hb

/-- A word with an instruction's opcode and operands decodes to it, whatever its unused bytes. -/
theorem decode_of_fields (i : Instr) {w : Word} (hop : byteAt w 0 = i.opcode) (h : i.operandsIn w) :
    decode w = .ok i :=
  (decode_of_opcode i hop).trans (i.reader_of_operandsIn h)

/-! ### The fields of an encoded instruction (30_encoding.md R67, R70 to R76) -/

theorem byteAt_bytes (b3 b2 b1 b0 : Byte) :
    byteAt (b3 ++ b2 ++ b1 ++ b0) 1 = b1 ∧ byteAt (b3 ++ b2 ++ b1 ++ b0) 2 = b2 ∧
      byteAt (b3 ++ b2 ++ b1 ++ b0) 3 = b3 := by
  obtain ⟨-, h1, h2, h3⟩ := Machine.wordSlice_bytes b3 b2 b1 b0
  exact ⟨h1, h2, h3⟩

/-- A 16-bit field in bytes 2 and 3, over a byte 1. -/
theorem fields_half_byte (h : BitVec 16) (b1 b0 : Byte) :
    byteAt (h ++ b1 ++ b0) 1 = b1 ∧ halfAt (h ++ b1 ++ b0) 2 = h := by
  have habove (len k : Nat) := BitVec.extractLsb'_append_eq_of_le (xhi := h ++ b1) (xlo := b0) (start := 8 + 8 * k)
    (len := len) (by omega)
  exact ⟨(habove 8 0).trans BitVec.extractLsb'_append_eq_right, (habove 16 1).trans BitVec.extractLsb'_append_eq_left⟩

/-- A 16-bit field in bytes 1 and 2, under a byte 3. -/
theorem halfAt_byte_half (b3 : Byte) (h : BitVec 16) (b0 : Byte) : halfAt (b3 ++ h ++ b0) 1 = h := by
  have habove := BitVec.extractLsb'_append_eq_of_le (xhi := b3 ++ h) (xlo := b0) (start := 8) (len := 16) (by omega)
  exact habove.trans BitVec.extractLsb'_append_eq_right

theorem Instr.operandsIn_encode (i : Instr) : i.operandsIn (encode i) := by
  cases i with
  | add a b c | sub a b c | mul a b c | div a b c => exact byteAt_bytes _ _ _ _
  | jmp o | jeq o | jne o | call o => exact halfAt_byte_half _ _ _
  | ld r h | ldabs r h => exact fields_half_byte _ _ _
  | fin | skip | ret => trivial
  | out r | inp r | outr r | outnum r | innum r | push r | pop r =>
    exact (fields_half_byte _ _ _).1
  | eq a b | lt a b | le a b | mov a b =>
    obtain ⟨ha, hb, -⟩ := byteAt_bytes 0 b.code a.code (Instr.opcode _)
    exact ⟨ha, hb⟩

/-- Settles O1: the opcode byte selects the format's decoder, and each operand field holds its operand. -/
theorem decodeOfEncodeIsTheInstruction : Obligations.DecodeOfEncodeIsTheInstruction := by
  intro i
  exact decode_of_fields i (byteAt_encode_zero i) i.operandsIn_encode

end Sys2Proof
end

section

namespace Sys2Proof

/-! ### The opcode map and the formats (30_encoding.md R82, R84, R85) -/

/-- One instruction of each opcode, 0x01 to 0x18 in order. -/
def Instr.samples : List Instr :=
  [.add .ip .ip .ip, .sub .ip .ip .ip, .mul .ip .ip .ip, .div .ip .ip .ip, .jmp 0, .ld .ip 0, .fin, .out .ip,
    .eq .ip .ip, .lt .ip .ip, .le .ip .ip, .ldabs .ip 0, .inp .ip, .jeq 0, .jne 0, .outr .ip, .skip, .outnum .ip,
    .mov .ip .ip, .innum .ip, .push .ip, .pop .ip, .call 0, .ret]

/-- An opcode byte is invalid, or it is the opcode of an instruction of the map. -/
theorem opcode_invalid_or_sampled (op : Byte) :
    (op = 0 ∨ 0x19 ≤ op.toNat) ∧ formatOf op.toNat = none ∨
      (1 ≤ op.toNat ∧ op.toNat < 0x19) ∧ ∃ i ∈ Instr.samples, i.opcode = op ∧ formatOf op.toNat = some i.format := by
  revert op
  decide

theorem exists_instr_of_formatOf {op : Byte} {fmt : Format} (h : formatOf op.toNat = some fmt) :
    ∃ i : Instr, i.opcode = op ∧ i.format = fmt := by
  rcases opcode_invalid_or_sampled op with ⟨-, hnone⟩ | ⟨-, i, -, hop, hfmt⟩
  · rw [h] at hnone
    cases hnone
  · exact ⟨i, hop, Option.some.inj (hfmt.symm.trans h)⟩

theorem formatOf_eq_none_iff (op : Byte) : formatOf op.toNat = none ↔ op = 0 ∨ 0x19 ≤ op.toNat := by
  rcases opcode_invalid_or_sampled op with ⟨hop, hnone⟩ | ⟨⟨hmin, hmax⟩, i, -, -, hfmt⟩
  · simp only [hnone, hop]
  · have hop : op ≠ 0 := by rintro rfl; exact absurd hmin (by decide)
    simp only [hfmt, hop, reduceCtorEq, false_or, false_iff]
    omega

/-- How a format decodes (30_encoding.md R69 to R76). -/
inductive Format.Decoder : Format → (Word → Except DecodeError Instr) → Prop where
  | N (i : Instr) : Decoder .N fun _ => .ok i
  | R (mk : Reg → Instr) : Decoder .R (decodeR mk)
  | RR (mk : Reg → Reg → Instr) : Decoder .RR (decodeRR mk)
  | RRR (mk : Reg → Reg → Reg → Instr) : Decoder .RRR (decodeRRR mk)
  | O (mk : BitVec 16 → Instr) : Decoder .O (decodeO mk)
  | RO (mk : Reg → BitVec 16 → Instr) : Decoder .RO (decodeRH mk)
  | RI (mk : Reg → BitVec 16 → Instr) : Decoder .RI (decodeRH mk)

theorem Instr.format_decoder_reader (i : Instr) : i.format.Decoder i.reader := by
  cases i <;> constructor

/-- The decoder of a valid opcode is one of its format's. -/
theorem decode_of_formatOf {op : Byte} {fmt : Format} (h : formatOf op.toNat = some fmt) :
    ∃ d, fmt.Decoder d ∧ ∀ w, byteAt w 0 = op → decode w = d w := by
  obtain ⟨i, rfl, rfl⟩ := exists_instr_of_formatOf h
  exact ⟨i.reader, i.format_decoder_reader, fun _ => decode_of_opcode i⟩

/-- A word whose opcode is in no format is rejected by its opcode (30_encoding.md R85). -/
theorem decode_of_formatOf_none {w : Word} (h : formatOf (byteAt w 0).toNat = none) :
    decode w = .error (.invalidOpcode (byteAt w 0)) := by
  have hop := (formatOf_eq_none_iff _).1 h
  rw [decode]
  split
  case h_25 => rfl
  all_goals
    rename_i hval
    rcases hop with hzero | hbig
    · rw [hzero] at hval
      cases hval
    · omega

/-! ### One register field (30_encoding.md R79, R80) -/

/-- A register field decodes to the register it names, or is rejected with its value, position and opcode. -/
theorem decodeReg_cases (w : Word) (k : Nat) :
    (∃ r, registerByte (byteAt w k) = true ∧ decodeReg w k = .ok r) ∨
      registerByte (byteAt w k) = false ∧
        decodeReg w k = .error (.invalidRegister (byteAt w k) k (byteAt w 0)) := by
  rw [← Reg.ofByte_isSome, decodeReg]
  cases Reg.ofByte (byteAt w k) with
  | none => exact .inr ⟨rfl, rfl⟩
  | some r => exact .inl ⟨r, rfl, rfl⟩

theorem decodeReg_of_registerByte {w : Word} {k : Nat} (h : registerByte (byteAt w k) = true) :
    ∃ r, decodeReg w k = .ok r := by
  rcases decodeReg_cases w k with ⟨r, -, hr⟩ | ⟨hbad, -⟩
  · exact ⟨r, hr⟩
  · rw [hbad] at h
    cases h

theorem decodeReg_of_not_registerByte {w : Word} {k : Nat} (h : registerByte (byteAt w k) = false) :
    decodeReg w k = .error (.invalidRegister (byteAt w k) k (byteAt w 0)) := by
  rcases decodeReg_cases w k with ⟨r, hgood, -⟩ | ⟨-, herr⟩
  · rw [hgood] at h
    cases h
  · exact herr

/-- A register field depends on its own byte and the opcode byte. -/
theorem decodeReg_congr {v w : Word} {k : Nat} (h0 : byteAt v 0 = byteAt w 0) (hk : byteAt v k = byteAt w k) :
    decodeReg v k = decodeReg w k := by
  rw [decodeReg, decodeReg, h0, hk]

/-- A 16-bit field is fixed by its two bytes. -/
theorem halfAt_congr {v w : Word} {k : Nat} (hlo : byteAt v k = byteAt w k)
    (hhi : byteAt v (k + 1) = byteAt w (k + 1)) : halfAt v k = halfAt w k := by
  have hsplit (x : Word) : halfAt x k = byteAt x (k + 1) ++ byteAt x k :=
    (BitVec.extractLsb'_append_extractLsb'_eq_extractLsb' (x := x) (start₁ := 8 * k) (start₂ := 8 * (k + 1))
      (len₁ := 8) (len₂ := 8) (by omega)).symm
  rw [hsplit, hsplit, hlo, hhi]

/-! ### What each format accepts, rejects and reads -/

section
variable {fmt : Format} {d : Word → Except DecodeError Instr}

/-- A format's decoder accepts the words whose register fields all name registers. -/
theorem Format.Decoder.accepts (h : fmt.Decoder d) {w : Word}
    (hgood : ∀ k ∈ fmt.registerPositions, registerByte (byteAt w k) = true) : ∃ i, d w = .ok i := by
  have hreg (k : Nat) (hk : k ∈ fmt.registerPositions) := decodeReg_of_registerByte (hgood k hk)
  cases h with
  | N i => exact ⟨i, rfl⟩
  | R mk =>
    obtain ⟨a, ha⟩ := hreg 1 (by decide)
    exact ⟨mk a, by simp only [decodeR, ha]⟩
  | RR mk =>
    obtain ⟨a, ha⟩ := hreg 1 (by decide)
    obtain ⟨b, hb⟩ := hreg 2 (by decide)
    exact ⟨mk a b, by simp only [decodeRR, ha, hb]⟩
  | RRR mk =>
    obtain ⟨a, ha⟩ := hreg 1 (by decide)
    obtain ⟨b, hb⟩ := hreg 2 (by decide)
    obtain ⟨c, hc⟩ := hreg 3 (by decide)
    exact ⟨mk a b c, by simp only [decodeRRR, ha, hb, hc]⟩
  | O mk => exact ⟨mk (halfAt w 1), rfl⟩
  | RO mk | RI mk =>
    obtain ⟨a, ha⟩ := hreg 1 (by decide)
    exact ⟨mk a (halfAt w 2), by simp only [decodeRH, ha]⟩

/-- A format's decoder rejects a word for its first register field that names no register. -/
theorem Format.Decoder.rejects (h : fmt.Decoder d) {w : Word} {k : Nat} (hk : k ∈ fmt.registerPositions)
    (hbad : registerByte (byteAt w k) = false)
    (hfirst : ∀ j ∈ fmt.registerPositions, j < k → registerByte (byteAt w j) = true) :
    d w = .error (.invalidRegister (byteAt w k) k (byteAt w 0)) := by
  have herr := decodeReg_of_not_registerByte hbad
  have hok (j : Nat) (hj : j ∈ fmt.registerPositions) (hlt : j < k) := decodeReg_of_registerByte (hfirst j hj hlt)
  cases h with
  | N i | O mk => cases hk
  | R mk =>
    obtain rfl : k = 1 := by simpa [Format.registerPositions] using hk
    simp only [decodeR, herr]
  | RR mk =>
    obtain rfl | rfl : k = 1 ∨ k = 2 := by simpa [Format.registerPositions] using hk
    · simp only [decodeRR, herr]
    · obtain ⟨a, ha⟩ := hok 1 (by decide) (by decide)
      simp only [decodeRR, ha, herr]
  | RRR mk =>
    obtain rfl | rfl | rfl : k = 1 ∨ k = 2 ∨ k = 3 := by simpa [Format.registerPositions] using hk
    · simp only [decodeRRR, herr]
    · obtain ⟨a, ha⟩ := hok 1 (by decide) (by decide)
      simp only [decodeRRR, ha, herr]
    · obtain ⟨a, ha⟩ := hok 1 (by decide) (by decide)
      obtain ⟨b, hb⟩ := hok 2 (by decide) (by decide)
      simp only [decodeRRR, ha, hb, herr]
  | RO mk | RI mk =>
    obtain rfl : k = 1 := by simpa [Format.registerPositions] using hk
    simp only [decodeRH, herr]

/-- A format's decoder does not look at the bytes that the format does not use (30_encoding.md R81). -/
theorem Format.Decoder.congr (h : fmt.Decoder d) {v w : Word}
    (hused : ∀ k ∈ fmt.usedPositions, byteAt v k = byteAt w k) : d v = d w := by
  have hreg (k : Nat) (h0 : 0 ∈ fmt.usedPositions) (hk : k ∈ fmt.usedPositions) :=
    decodeReg_congr (hused 0 h0) (hused k hk)
  have hhalf (k : Nat) (hlo : k ∈ fmt.usedPositions) (hhi : k + 1 ∈ fmt.usedPositions) :=
    halfAt_congr (hused k hlo) (hused (k + 1) hhi)
  cases h with
  | N i => rfl
  | R mk => simp only [decodeR, hreg 1 (by decide) (by decide)]
  | RR mk => simp only [decodeRR, hreg 1 (by decide) (by decide), hreg 2 (by decide) (by decide)]
  | RRR mk =>
    simp only [decodeRRR, hreg 1 (by decide) (by decide), hreg 2 (by decide) (by decide),
      hreg 3 (by decide) (by decide)]
  | O mk => simp only [decodeO, hhalf 1 (by decide) (by decide)]
  | RO mk | RI mk => simp only [decodeRH, hreg 1 (by decide) (by decide), hhalf 2 (by decide) (by decide)]

end

/-- The first position in a rising list that fails a test, if not all pass. -/
theorem Format.exists_first_bad (fmt : Format) (p : Nat → Bool) (h : ¬ ∀ k ∈ fmt.registerPositions, p k = true) :
    ∃ k ∈ fmt.registerPositions, p k = false ∧ ∀ j ∈ fmt.registerPositions, j < k → p j = true := by
  have hex : ∃ k, k ∈ fmt.registerPositions ∧ p k = false := by simpa using h
  obtain ⟨hk, hbad⟩ := Nat.find_spec hex
  refine ⟨Nat.find hex, hk, hbad, fun j hj hlt => ?_⟩
  simpa [hj] using Nat.find_min hex hlt

theorem decode_of_first_bad_register {w : Word} {fmt : Format} {k : Nat} (hfmt : formatOf (byteAt w 0).toNat = some fmt)
    (hk : k ∈ fmt.registerPositions) (hbad : registerByte (byteAt w k) = false)
    (hfirst : ∀ j ∈ fmt.registerPositions, j < k → registerByte (byteAt w j) = true) :
    decode w = .error (.invalidRegister (byteAt w k) k (byteAt w 0)) := by
  obtain ⟨d, hd, hdecode⟩ := decode_of_formatOf hfmt
  exact (hdecode w rfl).trans (hd.rejects hk hbad hfirst)

theorem wordWellFormed_iff {w : Word} {fmt : Format} (h : formatOf (byteAt w 0).toNat = some fmt) :
    wordWellFormed w = true ↔ ∀ k ∈ fmt.registerPositions, registerByte (byteAt w k) = true := by
  have hfmt : formatOf (wordByte w 0).toNat = some fmt := h
  simp only [wordWellFormed, hfmt, List.all_eq_true]
  rfl

theorem wordWellFormed_of_formatOf_none {w : Word} (h : formatOf (byteAt w 0).toNat = none) :
    wordWellFormed w = false := by
  have hnone : formatOf (wordByte w 0).toNat = none := h
  simp only [wordWellFormed, hnone]

/-- Settles O5: a word of no format is rejected, and a format's decoder accepts unless a register field is bad. -/
theorem decodeAcceptsExactlyTheWellFormedWords : Obligations.DecodeAcceptsExactlyTheWellFormedWords := by
  intro w
  cases hfmt : formatOf (byteAt w 0).toNat with
  | none => simp [decode_of_formatOf_none hfmt, wordWellFormed_of_formatOf_none hfmt]
  | some fmt =>
    rw [wordWellFormed_iff hfmt]
    constructor
    · rintro ⟨i, hi⟩
      by_contra hnot
      obtain ⟨k, hk, hbad, hfirst⟩ := fmt.exists_first_bad (fun k => registerByte (byteAt w k)) hnot
      rw [decode_of_first_bad_register hfmt hk hbad hfirst] at hi
      cases hi
    · intro hgood
      obtain ⟨d, hd, hdecode⟩ := decode_of_formatOf hfmt
      rw [hdecode w rfl]
      exact hd.accepts hgood

/-- Settles O6: the opcode byte is used, so both words have one decoder, and it reads only the bytes its format uses. -/
theorem unusedBytesAreIgnored : Obligations.UnusedBytesAreIgnored := by
  intro w v fmt hfmt hused
  obtain ⟨d, hd, hdecode⟩ := decode_of_formatOf hfmt
  have h0 : byteAt v 0 = byteAt w 0 := hused 0 (by cases fmt <;> decide)
  calc decode v = d v := hdecode v h0
    _ = d w := hd.congr hused
    _ = decode w := (hdecode w rfl).symm

/-- Settles O2: each word's opcode and operand fields are those of its instruction. -/
theorem sampleWordsDecodeAsTheSpecSays : Obligations.SampleWordsDecodeAsTheSpecSays :=
  ⟨decode_of_fields (.add .r0 .r1 .r2) rfl ⟨rfl, rfl, rfl⟩, decode_of_fields (.jne 0xFFF4) rfl rfl,
    decode_of_fields (.ld .r3 0xFFFC) rfl ⟨rfl, rfl⟩, decode_of_fields (.ldabs .r0 7) rfl ⟨rfl, rfl⟩,
    decode_of_fields (.mov .r0 .r1) rfl ⟨rfl, rfl⟩, decode_of_fields (.eq .r0 .r3) rfl ⟨rfl, rfl⟩,
    decode_of_fields (.pop .sp) rfl rfl, decode_of_fields (.out .r0) rfl rfl, decode_of_fields .fin rfl trivial⟩

end Sys2Proof
end

section

namespace Sys2Proof

/-! ### What kinds of effect an instruction may have -/

/-- The five instructions of the Display (44_io.md section 3). -/
def Instr.usesConsole : Instr → Bool
  | .out _ | .inp _ | .outr _ | .outnum _ | .innum _ => true
  | _ => false

/-- The instructions that store a word at an address they compute (20_memory.md R54). -/
def Instr.storesWord : Instr → Bool
  | .push _ | .call _ => true
  | _ => false

/-- The codes of the faults an instruction may raise in Execute (60_exceptions.md R160). -/
def Instr.faultCodes : Instr → List Nat
  | .div _ _ _ => [4]
  | .ld _ _ | .out _ => [3]
  | .outr _ => [8]
  | .inp _ => [6]
  | .innum _ => [5, 6]
  | .push _ | .pop _ | .call _ | .ret => [2, 3]
  | _ => []

end Sys2Proof

namespace Sys2Proof.Machine

/-! ### What the checked accesses raise (20_memory.md R47, R48, R50) -/

theorem loadByte_error {s : State} {a : Word} {f : Fault} (h : loadByte s a = .error f) :
    f.reportedIp = s.curIp ∧ f.code = 3 := by
  simp only [loadByte] at h
  split at h <;> cases h
  exact ⟨rfl, rfl⟩

theorem loadWord_error {s : State} {a : Word} {f : Fault} (h : loadWord s a = .error f) :
    f.reportedIp = s.curIp ∧ f.code ∈ [2, 3] := by
  simp only [loadWord] at h
  split at h
  · cases h
    exact ⟨rfl, List.mem_cons_self⟩
  · split at h <;> cases h
    exact ⟨rfl, List.mem_cons_of_mem _ List.mem_cons_self⟩

theorem pushWord_error {s : State} {v : Word} {f : Fault} (h : pushWord s v = .error f) :
    f.reportedIp = s.curIp ∧ f.code ∈ [2, 3] := by
  simp only [pushWord, storeWord] at h
  by_cases ha : (s.readReg .sp).toNat % 4 = 0
  · by_cases hn : s.memSize < (s.readReg .sp).toNat + 4
    · simp only [ha, hn, ne_eq, not_true_eq_false, if_false, if_true] at h
      cases h
      exact ⟨rfl, List.mem_cons_of_mem _ List.mem_cons_self⟩
    · simp only [ha, hn, ne_eq, not_true_eq_false, if_false] at h
      cases h
  · simp only [ha, ne_eq, not_false_eq_true, if_true] at h
    cases h
    exact ⟨rfl, List.mem_cons_self⟩

/-! ### What Execute does: a chain of primitive effects, and an ending -/

/-- The effects that Execute of `i` chains, from `s`: register writes, and where the instruction has them, word stores,
emitted characters and reads of the Display's buffers. The controller and the latches are in none of them. -/
inductive Effect (i : Instr) (s : State) : State → Prop where
  | refl : Effect i s s
  | writeReg {u : State} (h : Effect i s u) (r : Reg) (v : Word) : Effect i s (u.writeReg r v)
  | store {u t : State} {a v : Word} (hi : i.storesWord = true) (h : Effect i s u) (ht : storeWord u a v = .ok t) :
      Effect i s t
  | emit {u : State} (hi : i.usesConsole = true) (h : Effect i s u) (cs : List Char) : Effect i s (emitAll u cs)
  /-- The buffer becomes what is left of it or of an unread line, and the unread lines what is left of them. -/
  | read {u : State} (hi : i.usesConsole = true) (h : Effect i s u) {b : List Char} {ls : List (List Char)}
      (hb : b <:+ u.inbuf ∨ ∃ l ∈ u.lines, b <:+ l) (hls : ls <:+ u.lines) :
      Effect i s { u with inbuf := b, lines := ls }

/-- The ways Execute of `i` ends once its effects have led to `u` (40_cycle.md R99, R101, R102, R107; log entry 11). -/
inductive Ending (i : Instr) (u : State) : State → Prop where
  | ended (adv : Bool) : Ending i u (endExecute adv u)
  | faulted (f : Fault) (hip : f.reportedIp = u.curIp) (hcode : f.code ∈ i.faultCodes) : Ending i u (raise f u)
  | waits (hbuf : u.inbuf = []) (hi : ∃ r, i = .inp r ∨ i = .innum r) : Ending i u (waiting u)
  | goesOn (hi : ∃ r, i = .out r) : Ending i u { u with ctl := .running .execute }

/-- The outcome is a next state, by effects of `i` from `s` and an ending. -/
def Executes (i : Instr) (s : State) (o : Host.Outcome State Fault Refusal) : Prop :=
  ∃ u t, o = .next t ∧ Effect i s u ∧ Ending i u t

section
variable {i : Instr} {s u : State}

theorem Effect.completes (h : Effect i s u) (adv : Bool) : Executes i s (complete adv u) :=
  ⟨u, _, rfl, h, .ended adv⟩

theorem Effect.faults (h : Effect i s u) {f : Fault} (hip : f.reportedIp = u.curIp) (hcode : f.code ∈ i.faultCodes) :
    Executes i s (takeFault f u) :=
  ⟨u, _, rfl, h, .faulted f hip hcode⟩

theorem Effect.pushWord {t : State} {v : Word} (hi : i.storesWord = true) (h : Effect i s u)
    (ht : pushWord u v = .ok t) : Effect i s t := by
  obtain ⟨ha, hn, w, rfl, rfl⟩ := pushWord_eq_ok ht
  exact (h.store hi (storeWord_ok ha hn)).writeReg _ _

/-! ### Each shared operation is such a chain -/

/-- A pop's two faults keep the decrement of SP. -/
theorem popInto_executes (r : Reg) (hcode : i.faultCodes = [2, 3]) (s : State) : Executes i s (popInto r s) := by
  have hdrop : Effect i s (dropSlot s) := Effect.refl.writeReg _ _
  unfold popInto
  split
  · rename_i f hf
    obtain ⟨hip, hf⟩ := loadWord_error hf
    exact hdrop.faults hip (hcode ▸ hf)
  · exact (hdrop.writeReg _ _).completes true

theorem outLoop_executes {r : Reg} (hi : i = .out r) (n : Nat) (a : Word) (h : Effect i s u) :
    Executes i s (outLoop n a u) := by
  subst hi
  induction n generalizing a u with
  | zero => exact ⟨u, _, rfl, h, .goesOn ⟨r, rfl⟩⟩
  | succ n ih =>
    unfold outLoop
    split
    · rename_i f hf
      obtain ⟨hip, hcode⟩ := loadByte_error hf
      exact h.faults hip (hcode ▸ List.mem_cons_self)
    · split
      · exact h.completes true
      · exact ih _ (h.emit rfl _)

/-! ### The input operations of the Display (44_io.md R132 to R137) -/

/-- An input operation for `i` reads the Display's buffers and nothing else; it blocks only with an empty buffer. -/
def Input.Sound {α : Type} (i : Instr) (s : State) : Input α → Prop
  | .got _ u => Effect i s u
  | .blocked u => Effect i s u ∧ u.inbuf = []
  | .exhausted u => Effect i s u ∧ 6 ∈ i.faultCodes
  | .malformed u => Effect i s u ∧ 5 ∈ i.faultCodes

theorem noLine_sound {α : Type} (h : Effect i s u) (hbuf : u.inbuf = []) (hcode : 6 ∈ i.faultCodes) :
    (noLine u : Input α).Sound i s := by
  unfold noLine
  split
  · exact ⟨h, hcode⟩
  · exact ⟨h, hbuf⟩

/-- GetChar's loop, with `ls` the lines that it has not yet passed. -/
theorem getCharRefilling_sound (hi : i.usesConsole = true) (hcode : 6 ∈ i.faultCodes) (hbuf : s.inbuf = [])
    (ls : List (List Char)) (hls : ls <:+ s.lines) : (getCharRefilling ls s).Sound i s := by
  induction ls with
  | nil =>
    have h : Effect i s { s with inbuf := s.inbuf, lines := [] } := Effect.refl.read hi (.inl List.suffix_rfl) hls
    exact noLine_sound h hbuf hcode
  | cons l ls ih =>
    have hrest : ls <:+ s.lines := (List.suffix_cons l ls).trans hls
    cases l with
    | nil => exact ih hrest
    | cons c rest =>
      exact Effect.refl.read hi (.inr ⟨c :: rest, hls.subset List.mem_cons_self, List.suffix_cons c rest⟩) hrest

theorem getChar_sound (hi : i.usesConsole = true) (hcode : 6 ∈ i.faultCodes) (s : State) :
    (getChar s).Sound i s := by
  unfold getChar
  split
  · rename_i c rest hbuf
    exact Effect.refl.read hi (.inl (hbuf ▸ List.suffix_cons c rest)) List.suffix_rfl
  · rename_i hbuf
    exact getCharRefilling_sound hi hcode hbuf s.lines List.suffix_rfl

theorem takeNumber_sound (hi : i.usesConsole = true) (hcode : 5 ∈ i.faultCodes) (h : Effect i s u) :
    (takeNumber u).Sound i s := by
  have htaken : Effect i s { u with inbuf := [], lines := u.lines } :=
    h.read hi (.inl (List.nil_suffix)) List.suffix_rfl
  unfold takeNumber
  split
  · exact ⟨htaken, hcode⟩
  · exact htaken

theorem getNum_sound (hi : i.usesConsole = true) (h5 : 5 ∈ i.faultCodes) (h6 : 6 ∈ i.faultCodes) (s : State) :
    (getNum s).Sound i s := by
  cases hbuf : s.inbuf with
  | cons c rest =>
    rw [getNum_buffered (by simp [hbuf])]
    exact takeNumber_sound hi h5 .refl
  | nil =>
    cases hlines : s.lines with
    | cons l ls =>
      rw [getNum_refills hbuf hlines]
      refine takeNumber_sound hi h5 (Effect.refl.read hi (.inr ⟨l, ?_, List.suffix_rfl⟩) ?_)
      · simp [hlines]
      · simp [hlines]
    | nil =>
      have hno := noLine_sound (α := Word) (i := i) .refl hbuf h6
      rwa [noLine, ← getNum_noLine hbuf hlines] at hno

theorem finishInput_executes (r : Reg) (hi : ∃ r, i = .inp r ∨ i = .innum r) {x : Input Word} (h : x.Sound i s) :
    Executes i s (finishInput r x) := by
  cases x with
  | got v u => exact (Effect.writeReg h r v).completes true
  | blocked u => exact ⟨u, _, rfl, h.1, .waits h.2 hi⟩
  | exhausted u => exact h.1.faults rfl h.2
  | malformed u => exact h.1.faults rfl h.2

theorem execIn_executes (r : Reg) (s : State) : Executes (.inp r) s (execIn r s) := by
  have h := getChar_sound (i := .inp r) rfl List.mem_cons_self s
  have hi : ∃ q, Instr.inp r = .inp q ∨ Instr.inp r = .innum q := ⟨r, .inl rfl⟩
  unfold execIn
  split <;> rename_i hx <;> rw [hx] at h
  · exact finishInput_executes r hi (x := .got _ _) h
  · exact finishInput_executes r hi (x := .blocked _) h
  · exact finishInput_executes r hi (x := .exhausted _) h
  · exact finishInput_executes r hi (x := .malformed _) h

end

/-! ### Every instruction is such a chain -/

/-- Execute of every instruction answers a next state, by its own kinds of effects and endings. -/
theorem exec_executes (i : Instr) (s : State) : Executes i s (exec i s) := by
  cases i with
  | add | sub | mul | ldabs | mov | eq | lt | le => exact (Effect.refl.writeReg _ _).completes true
  | jmp | fin => exact (Effect.refl.writeReg _ _).completes false
  | skip => exact Effect.refl.completes true
  | outnum r => exact (Effect.refl.emit rfl _).completes true
  | div a b c =>
    show Executes _ s (execDiv a b c s)
    unfold execDiv
    split
    · exact Effect.refl.faults rfl List.mem_cons_self
    · exact (Effect.refl.writeReg _ _).completes true
  | ld r o =>
    show Executes _ s (execLd r o s)
    unfold execLd
    split
    · rename_i f hf
      obtain ⟨hip, hcode⟩ := loadByte_error hf
      exact Effect.refl.faults hip (hcode ▸ List.mem_cons_self)
    · exact (Effect.refl.writeReg _ _).completes true
  | jeq o =>
    show Executes _ s (execJeq o s)
    unfold execJeq
    split
    · exact (Effect.refl.writeReg _ _).completes false
    · exact Effect.refl.completes true
  | jne o =>
    show Executes _ s (execJne o s)
    unfold execJne
    split
    · exact Effect.refl.completes true
    · exact (Effect.refl.writeReg _ _).completes false
  | outr r =>
    show Executes _ s (execOutr r s)
    unfold execOutr
    split
    · exact Effect.refl.faults rfl List.mem_cons_self
    · exact (Effect.refl.emit rfl [_]).completes true
  | out r => exact outLoop_executes rfl _ _ .refl
  | inp r => exact execIn_executes r s
  | innum r =>
    have hsound := getNum_sound (i := .innum r) rfl List.mem_cons_self (List.mem_cons_of_mem _ List.mem_cons_self) s
    exact finishInput_executes r ⟨r, .inr rfl⟩ hsound
  | push r =>
    show Executes _ s (execPush r s)
    unfold execPush
    split
    · rename_i f hf
      obtain ⟨hip, hcode⟩ := pushWord_error hf
      exact Effect.refl.faults hip hcode
    · rename_i t ht
      exact (Effect.refl.pushWord rfl ht).completes true
  | call o =>
    show Executes _ s (execCall o s)
    unfold execCall
    split
    · rename_i f hf
      obtain ⟨hip, hcode⟩ := pushWord_error hf
      exact Effect.refl.faults hip hcode
    · rename_i t ht
      exact ((Effect.refl.pushWord rfl ht).writeReg _ _).completes false
  | pop r => exact popInto_executes r rfl s
  | ret => exact popInto_executes .ip rfl s

theorem exec_next {i : Instr} {s t : State} (h : exec i s = .next t) : ∃ u, Effect i s u ∧ Ending i u t := by
  obtain ⟨u, t', ht, hu, hend⟩ := exec_executes i s
  rw [h] at ht
  cases ht
  exact ⟨u, hu, hend⟩

end Sys2Proof.Machine
end

section

namespace Sys2Proof.Machine

/-! ### What a chain of effects keeps -/

section
variable {i : Instr} {s u : State}

theorem Effect.sameLatches (h : Effect i s u) : sameLatches s u := by
  induction h with
  | refl => exact ⟨rfl, rfl, rfl, rfl, rfl⟩
  | writeReg _ r v ih => exact ih
  | store _ _ ht ih =>
    obtain ⟨-, -, rfl⟩ := storeWord_eq_ok ht
    exact ih
  | emit _ _ cs ih => exact ih
  | read _ _ _ _ ih => exact ih

theorem Effect.wf (h : Effect i s u) (hs : s.wf) : u.wf := by
  induction h with
  | refl => exact hs
  | writeReg _ r v ih => exact State.writeReg_wf ih r v
  | store _ _ ht ih => exact storeWord_wf ih ht
  | emit _ _ cs ih => exact ih
  | read _ _ _ _ ih => exact ih

theorem Effect.noNewlineBuffered (h : Effect i s u) (hs : s.noNewlineBuffered) : u.noNewlineBuffered := by
  induction h with
  | refl => exact hs
  | writeReg _ r v ih => exact ih
  | store _ _ ht ih =>
    obtain ⟨-, -, rfl⟩ := storeWord_eq_ok ht
    exact ih
  | emit _ _ cs ih => exact ih
  | read _ _ hb hls ih =>
    obtain ⟨hinbuf, htail, hlines⟩ := ih
    refine ⟨fun hmem => ?_, htail, fun l hl => hlines l (hls.subset hl)⟩
    rcases hb with hb | ⟨l, hl, hb⟩
    · exact hinbuf (hb.subset hmem)
    · exact hlines l hl (hb.subset hmem)

theorem Effect.output_grows (h : Effect i s u) : ∃ cs, u.output = s.output ++ cs := by
  induction h with
  | refl => exact ⟨[], (List.append_nil _).symm⟩
  | writeReg _ r v ih => exact ih
  | store _ _ ht ih =>
    obtain ⟨-, -, rfl⟩ := storeWord_eq_ok ht
    exact ih
  | emit _ _ cs ih =>
    obtain ⟨cs', hcs⟩ := ih
    exact ⟨cs' ++ cs, by rw [emitAll_output, hcs, List.append_assoc]⟩
  | read _ _ _ _ ih => exact ih

theorem Effect.sameConsole (h : Effect i s u) (hi : i.usesConsole = false) : sameConsole s u := by
  induction h with
  | refl => exact ⟨⟨rfl, rfl, rfl, rfl⟩, rfl⟩
  | writeReg _ r v ih => exact ih
  | store _ _ ht ih =>
    obtain ⟨-, -, rfl⟩ := storeWord_eq_ok ht
    exact ih
  | emit huses _ cs _ => rw [hi] at huses; cases huses
  | read huses _ _ _ _ => rw [hi] at huses; cases huses

theorem Effect.byte_outside_registers (h : Effect i s u) (hi : i.storesWord = false) (hs : s.wf) {a : Nat}
    (ha : 32 ≤ a) : u.mem.byte a = s.mem.byte a := by
  induction h with
  | refl => rfl
  | @writeReg u hu r v ih =>
    obtain ⟨-, -, hcanon, -⟩ := hu.wf hs
    have hle : r.addr + 4 ≤ 32 := Reg.addr_le r
    exact (Memory.byte_putWord_outside hcanon v (.inr (hle.trans ha))).trans ih
  | store hstores _ _ _ => rw [hi] at hstores; cases hstores
  | emit _ _ cs ih => exact ih
  | read _ _ _ _ ih => exact ih

end

/-! ### What an ending adds: it moves ctl, and may latch adv -/

section
variable {i : Instr} {s t u : State}

theorem Ending.mem_eq (h : Ending i u t) : t.mem = u.mem := by
  cases h <;> rfl

theorem Ending.sameLatches (h : Ending i u t) : sameLatches u t := by
  cases h <;> exact ⟨rfl, rfl, rfl, rfl, rfl⟩

theorem Ending.sameConsole (h : Ending i u t) : sameConsole u t := by
  cases h <;> exact ⟨⟨rfl, rfl, rfl, rfl⟩, rfl⟩

theorem Ending.fault (h : Ending i u t) {f : Fault} (hf : t.ctl = .faulted f) :
    f.reportedIp = u.curIp ∧ f.code ∈ i.faultCodes := by
  cases h with
  | faulted g hip hcode =>
    cases hf
    exact ⟨hip, hcode⟩
  | ended | waits | goesOn => cases hf

theorem Ending.waitInput (h : Ending i u t) (ht : t.ctl = .waitInput) :
    u.inbuf = [] ∧ ∃ r, i = .inp r ∨ i = .innum r := by
  cases h with
  | waits hbuf hi => exact ⟨hbuf, hi⟩
  | ended | faulted | goesOn => cases ht

theorem sameLatches_trans (h1 : sameLatches s u) (h2 : sameLatches u t) : sameLatches s t := by
  obtain ⟨a1, b1, c1, d1, e1⟩ := h1
  obtain ⟨a2, b2, c2, d2, e2⟩ := h2
  exact ⟨a2.trans a1, b2.trans b1, c2.trans c1, d2.trans d1, e2.trans e1⟩

theorem sameConsole_trans (h1 : sameConsole s u) (h2 : sameConsole u t) : sameConsole s t := by
  obtain ⟨⟨a1, b1, c1, d1⟩, e1⟩ := h1
  obtain ⟨⟨a2, b2, c2, d2⟩, e2⟩ := h2
  exact ⟨⟨a2.trans a1, b2.trans b1, c2.trans c1, d2.trans d1⟩, e2.trans e1⟩

end

theorem exec_wf {i : Instr} {s t : State} (hwf : s.wf) (h : exec i s = .next t) : t.wf := by
  obtain ⟨u, hu, hend⟩ := exec_next h
  obtain ⟨hsize, -⟩ := hend.sameLatches
  have huwf := hu.wf hwf
  rwa [State.wf, hend.mem_eq, hsize]

/-! ### Statements about every instruction -/

/-- Settles O55: without the console effects the Display is as it was, and only IN and INNUM end by waiting. -/
theorem onlyIoInstructionsTouchTheConsole : Obligations.OnlyIoInstructionsTouchTheConsole := by
  intro i s t h hnot
  obtain ⟨u, hu, hend⟩ := exec_next h
  have hi : i.usesConsole = false := by
    cases i with
    | out r | inp r | outr r | outnum r | innum r =>
      obtain ⟨h1, h2, h3, h4, h5⟩ := hnot r
      contradiction
    | _ => rfl
  refine ⟨sameConsole_trans (hu.sameConsole hi) hend.sameConsole, fun hwait => ?_⟩
  obtain ⟨-, r, rfl | rfl⟩ := hend.waitInput hwait <;> cases hi

/-- Settles O56: without a word store, a chain of effects writes registers only, and they lie below 32. -/
theorem onlyPushAndCallStoreOutsideTheRegisters : Obligations.OnlyPushAndCallStoreOutsideTheRegisters := by
  intro i s t hwf h hpush hcall a ha
  obtain ⟨u, hu, hend⟩ := exec_next h
  have hi : i.storesWord = false := by
    cases i with
    | push r => exact absurd rfl (hpush r)
    | call o => exact absurd rfl (hcall o)
    | _ => rfl
  rw [hend.mem_eq]
  exact hu.byte_outside_registers hi hwf ha

/-- Settles O57: an ending that faults has one of the instruction's own codes. -/
theorem executeFaultsAreThoseOfTheTable : Obligations.ExecuteFaultsAreThoseOfTheTable := by
  intro i s t f h hf
  obtain ⟨u, -, hend⟩ := exec_next h
  obtain ⟨-, hcode⟩ := hend.fault hf
  cases i <;> exact hcode

/-! ### What one step can do, from every control state (40_cycle.md R94 to R107) -/

/-- One stage of the controller, from the control state that it belongs to. -/
inductive Stage : State → State → Prop where
  | check {s : State} (hctl : s.ctl = .running .check) : Stage s (checkStage s)
  | fetch {s : State} (hctl : s.ctl = .running .fetch) : Stage s (fetchStage s)
  | decode {s : State} (hctl : s.ctl = .running .decode) : Stage s (decodeStage s)
  | execute {s t : State} (hctl : s.ctl = .running .execute ∨ s.ctl = .waitInput) (h : exec s.inst s = .next t) :
      Stage s t
  | advance {s : State} (hctl : s.ctl = .running .advance) : Stage s (advanceStage s)
  | exit {s : State} (hctl : s.ctl = .running .exit) : Stage s (exitStage s)

/-- A chain of stages. -/
abbrev Stages : State → State → Prop :=
  Relation.ReflTransGen Stage

theorem exec_isNext (i : Instr) (s : State) : ∃ t, exec i s = .next t := by
  obtain ⟨-, t, ht, -⟩ := exec_executes i s
  exact ⟨t, ht⟩

theorem runExecute_stages {s : State} (hctl : s.ctl = .running .execute ∨ s.ctl = .waitInput) :
    ∃ t, runExecute s = .next t ∧ Stages s t := by
  obtain ⟨u, hu⟩ := exec_isNext s.inst s
  have hs : Stages s u := .single (.execute hctl hu)
  rw [runExecute, hu]
  by_cases hadv : u.ctl = .running .advance
  · exact ⟨_, afterExecute_advances hadv, hs.tail (.advance hadv)⟩
  · exact ⟨_, afterExecute_stops hadv, hs⟩

theorem runDecode_stages {s : State} (hctl : s.ctl = .running .decode) :
    ∃ t, runDecode s = .next t ∧ Stages s t := by
  unfold runDecode
  split
  · rename_i hexec
    obtain ⟨t, ht, hst⟩ := runExecute_stages (.inl hexec)
    exact ⟨t, ht, hst.head (.decode hctl)⟩
  · exact ⟨_, rfl, .single (.decode hctl)⟩

theorem runFetch_stages {s : State} (hctl : s.ctl = .running .fetch) : ∃ t, runFetch s = .next t ∧ Stages s t := by
  unfold runFetch
  split
  · rename_i hdecode
    obtain ⟨t, ht, hst⟩ := runDecode_stages hdecode
    exact ⟨t, ht, hst.head (.fetch hctl)⟩
  · exact ⟨_, rfl, .single (.fetch hctl)⟩

theorem runCheck_stages {s : State} (hctl : s.ctl = .running .check) : ∃ t, runCheck s = .next t ∧ Stages s t := by
  unfold runCheck
  split
  · rename_i hfetch
    obtain ⟨t, ht, hst⟩ := runFetch_stages hfetch
    exact ⟨t, ht, hst.head (.check hctl)⟩
  · rename_i hnot
    have hexit : (checkStage s).ctl = .running .exit := by
      cases hend : endSet s <;> simp_all [checkStage]
    exact ⟨_, rfl, .tail (.single (.check hctl)) (.exit hexit)⟩

/-- A step of a machine that is not Faulted answers a next state, by a chain of stages. -/
theorem step_stages {s : State} (hsafe : s.safe) : ∃ t, step s = .next t ∧ Stages s t := by
  unfold step
  split <;> rename_i hctl
  · exact ⟨s, rfl, .refl⟩
  · exact runCheck_stages hctl
  · exact runFetch_stages hctl
  · exact runDecode_stages hctl
  · exact runExecute_stages (.inl hctl)
  · exact ⟨_, rfl, .single (.advance hctl)⟩
  · exact ⟨_, rfl, .single (.exit hctl)⟩
  · exact runExecute_stages (.inr hctl)
  · exact absurd hctl (hsafe _)

theorem step_faulted {s : State} {f : Fault} (h : s.ctl = .faulted f) : step s = .fault f := by
  simp only [step, h]

theorem stages_of_step {s t : State} (h : step s = .next t) : Stages s t := by
  have hsafe : s.safe := by
    intro f hf
    rw [step_faulted hf] at h
    cases h
  obtain ⟨t', ht, hst⟩ := step_stages hsafe
  rw [h] at ht
  cases ht
  exact hst

/-- Settles O15: the arm of step for Faulted. -/
theorem faultedTakesNoStep : Obligations.FaultedTakesNoStep := by
  intro s f h
  exact step_faulted h

/-- Settles O16: Execute is a chain of effects with an ending, and a step is a chain of stages. -/
theorem onlyFaultedStopsTheMachine : Obligations.OnlyFaultedStopsTheMachine := by
  refine ⟨exec_isNext, fun s hsafe => ?_⟩
  obtain ⟨t, ht, -⟩ := step_stages hsafe
  exact ⟨t, ht⟩

/-! ### What Advance and Fetch leave as it was -/

theorem advanceStage_latches (s : State) :
    sameLatches s (advanceStage s) ∧ sameConsole s (advanceStage s) ∧ (advanceStage s).ctl = .running .check ∧
      (advanceStage s).adv = s.adv := by
  cases hadv : s.adv
  · rw [advanceStage_false hadv]
    exact ⟨⟨rfl, rfl, rfl, rfl, rfl⟩, ⟨⟨rfl, rfl, rfl, rfl⟩, rfl⟩, rfl, hadv⟩
  · rw [advanceStage_true hadv]
    exact ⟨⟨rfl, rfl, rfl, rfl, rfl⟩, ⟨⟨rfl, rfl, rfl, rfl⟩, rfl⟩, rfl, hadv⟩

/-- Fetch latches cur_ip and then faults, or hands a word to Decode. -/
theorem fetchStage_cases (s : State) :
    (∃ f : Fault, f.reportedIp = s.readReg .ip ∧ fetchStage s = raise f (latchCurIp s)) ∨
      ∃ w, fetchStage s = { latchCurIp s with fetched := w, ctl := .running .decode } := by
  unfold fetchStage
  split
  · rename_i f hf
    obtain ⟨hip, -⟩ := loadWord_error hf
    exact .inl ⟨f, hip, rfl⟩
  · exact .inr ⟨_, rfl⟩

/-- Decode faults, naming cur_ip, or hands an instruction to Execute. -/
theorem decodeStage_cases (s : State) :
    (∃ f : Fault, f.reportedIp = s.curIp ∧ decodeStage s = raise f s) ∨
      ∃ i, decodeStage s = { s with inst := i, ctl := .running .execute } := by
  unfold decodeStage
  split
  · rename_i e he
    exact .inl ⟨_, by cases e <;> rfl, rfl⟩
  · exact .inr ⟨_, rfl⟩

/-! ### N, initial_ip and the output stream -/

/-- N and initial_ip are as they were, and the output stream has at most grown. -/
def keepsSizeAndGrows (s t : State) : Prop :=
  t.memSize = s.memSize ∧ t.initialIp = s.initialIp ∧ ∃ cs, t.output = s.output ++ cs

theorem keepsSizeAndGrows_of_output {s t : State} (hn : t.memSize = s.memSize) (hip : t.initialIp = s.initialIp)
    (hout : t.output = s.output) : keepsSizeAndGrows s t :=
  ⟨hn, hip, [], by rw [hout, List.append_nil]⟩

theorem keepsSizeAndGrows_trans {s t u : State} (h1 : keepsSizeAndGrows s t) (h2 : keepsSizeAndGrows t u) :
    keepsSizeAndGrows s u := by
  obtain ⟨hn1, hip1, cs1, hout1⟩ := h1
  obtain ⟨hn2, hip2, cs2, hout2⟩ := h2
  exact ⟨hn2.trans hn1, hip2.trans hip1, cs1 ++ cs2, by rw [hout2, hout1, List.append_assoc]⟩

theorem exec_keepsSizeAndGrows {i : Instr} {s t : State} (h : exec i s = .next t) : keepsSizeAndGrows s t := by
  obtain ⟨u, hu, hend⟩ := exec_next h
  obtain ⟨hn, hip, -⟩ := sameLatches_trans hu.sameLatches hend.sameLatches
  obtain ⟨cs, hcs⟩ := hu.output_grows
  obtain ⟨-, hout⟩ := hend.sameConsole
  exact ⟨hn, hip, cs, hout.trans hcs⟩

theorem Stage.keepsSizeAndGrows {s t : State} (h : Stage s t) : keepsSizeAndGrows s t := by
  cases h with
  | check | exit => exact keepsSizeAndGrows_of_output rfl rfl rfl
  | fetch =>
    rcases fetchStage_cases s with ⟨f, -, h⟩ | ⟨w, h⟩ <;> rw [h]
    · exact keepsSizeAndGrows_of_output rfl rfl rfl
    · exact keepsSizeAndGrows_of_output rfl rfl rfl
  | decode =>
    rcases decodeStage_cases s with ⟨f, -, h⟩ | ⟨i, h⟩ <;> rw [h]
    · exact keepsSizeAndGrows_of_output rfl rfl rfl
    · exact keepsSizeAndGrows_of_output rfl rfl rfl
  | execute _ h => exact exec_keepsSizeAndGrows h
  | advance =>
    obtain ⟨⟨hn, hip, -⟩, ⟨-, hout⟩, -⟩ := advanceStage_latches s
    exact keepsSizeAndGrows_of_output hn hip hout

/-- Settles O58: a step is a chain of stages, and each stage keeps N and initial_ip and at most appends output. -/
theorem stepKeepsSizeAndEntryPoint : Obligations.StepKeepsSizeAndEntryPoint := by
  intro s t h
  have hst := stages_of_step h
  clear h
  show keepsSizeAndGrows s t
  induction hst with
  | refl => exact keepsSizeAndGrows_of_output rfl rfl rfl
  | tail _ hstage ih => exact keepsSizeAndGrows_trans ih hstage.keepsSizeAndGrows

/-! ### The invariant -/

/-- In a sub-state of Running the invariant is well-formedness and LF-free lines. -/
theorem inv_of_running {s : State} {p : Phase} (hctl : s.ctl = .running p) (hwf : s.wf) (hnl : s.noNewlineBuffered) :
    s.inv :=
  ⟨hwf, fun f hf => (by rw [hctl] at hf; cases hf), fun hw => (by rw [hctl] at hw; cases hw), hnl⟩

theorem inv_raise {s : State} {f : Fault} (hip : f.reportedIp = s.curIp) (hwf : s.wf) (hnl : s.noNewlineBuffered) :
    (raise f s).inv :=
  ⟨hwf, fun g hg => (by cases hg; exact hip), fun hw => (by cases hw), hnl⟩

theorem inv_waiting {s : State} (hbuf : s.inbuf = []) (hi : ∃ r, s.inst = .inp r ∨ s.inst = .innum r) (hwf : s.wf)
    (hnl : s.noNewlineBuffered) : (waiting s).inv :=
  ⟨hwf, fun g hg => (by cases hg), fun _ => ⟨hbuf, hi⟩, hnl⟩

theorem noNewlineBuffered_of_sameInput {s t : State} (h : sameInput s t) (hs : s.noNewlineBuffered) :
    t.noNewlineBuffered := by
  obtain ⟨hinbuf, hlines, htail, -⟩ := h
  rwa [State.noNewlineBuffered, hinbuf, hlines, htail]

theorem exec_inv {s t : State} (hwf : s.wf) (hnl : s.noNewlineBuffered) (h : exec s.inst s = .next t) : t.inv := by
  obtain ⟨u, hu, hend⟩ := exec_next h
  have huwf := hu.wf hwf
  have hunl := hu.noNewlineBuffered hnl
  obtain ⟨-, -, -, -, hinst⟩ := hu.sameLatches
  cases hend with
  | ended adv => exact inv_of_running rfl huwf hunl
  | faulted f hip _ => exact inv_raise hip huwf hunl
  | waits hbuf hi => exact inv_waiting hbuf (hinst ▸ hi) huwf hunl
  | goesOn _ => exact inv_of_running rfl huwf hunl

theorem Stage.inv {s t : State} (h : Stage s t) (hs : s.inv) : t.inv := by
  obtain ⟨hwf, -, -, hnl⟩ := hs
  cases h with
  | check => exact inv_of_running rfl hwf hnl
  | fetch =>
    rcases fetchStage_cases s with ⟨f, hip, h⟩ | ⟨w, h⟩ <;> rw [h]
    · exact inv_raise hip hwf hnl
    · exact inv_of_running rfl hwf hnl
  | decode =>
    rcases decodeStage_cases s with ⟨f, hip, h⟩ | ⟨i, h⟩ <;> rw [h]
    · exact inv_raise hip hwf hnl
    · exact inv_of_running rfl hwf hnl
  | execute _ h => exact exec_inv hwf hnl h
  | advance =>
    obtain ⟨-, ⟨hinput, -⟩, hctl, -⟩ := advanceStage_latches s
    exact inv_of_running hctl (advanceStage_wf hwf) (noNewlineBuffered_of_sameInput hinput hnl)
  | exit => exact ⟨exitStage_wf hwf, fun f hf => (by cases hf), fun hw => (by cases hw), hnl⟩

theorem step_inv {s t : State} (hs : s.inv) (h : step s = .next t) : t.inv := by
  have hst := stages_of_step h
  clear h
  induction hst with
  | refl => exact hs
  | tail _ hstage ih => exact hstage.inv ih

/-! ### The host's moves (60_exceptions.md R173, R174; 44_io.md R132) -/

/-- The host's input moves: the unread lines, the unfinished line and the closed flag may change, and nothing else;
no LF enters a line. -/
def InputMove (s t : State) : Prop :=
  (∃ ls tl cl, t = { s with lines := ls, tail := tl, closed := cl }) ∧ (s.noNewlineBuffered → t.noNewlineBuffered)

theorem inputMove_refl (s : State) : InputMove s s :=
  ⟨⟨s.lines, s.tail, s.closed, rfl⟩, id⟩

theorem inputMove_trans {s t u : State} (h1 : InputMove s t) (h2 : InputMove t u) : InputMove s u := by
  obtain ⟨⟨_, _, _, rfl⟩, hnl1⟩ := h1
  obtain ⟨⟨ls, tl, cl, rfl⟩, hnl2⟩ := h2
  exact ⟨⟨ls, tl, cl, rfl⟩, hnl2 ∘ hnl1⟩

/-- A line joins the unread ones: the unfinished line, which has no LF. -/
theorem noNewline_lines_append {s : State} (h : s.noNewlineBuffered) : ∀ l ∈ s.lines ++ [s.tail], '\n' ∉ l := by
  obtain ⟨-, htail, hlines⟩ := h
  intro l hl
  rcases List.mem_append.1 hl with hl | hl
  · exact hlines l hl
  · rw [List.mem_singleton.1 hl]
    exact htail

theorem receiveChar_inputMove (s : State) (c : Char) : InputMove s (s.receiveChar c) := by
  unfold State.receiveChar
  split
  · exact inputMove_refl s
  · split
    · exact ⟨⟨_, _, s.closed, rfl⟩, fun h => ⟨h.1, List.not_mem_nil, noNewline_lines_append h⟩⟩
    · rename_i hc
      refine ⟨⟨s.lines, _, s.closed, rfl⟩, fun ⟨hinbuf, htail, hlines⟩ => ⟨hinbuf, fun hmem => ?_, hlines⟩⟩
      rcases List.mem_append.1 hmem with hmem | hmem
      · exact htail hmem
      · exact hc (List.mem_singleton.1 hmem).symm

theorem receiveText_inputMove (s : State) (cs : List Char) : InputMove s (s.receiveText cs) := by
  induction cs generalizing s with
  | nil => exact inputMove_refl s
  | cons c cs ih => exact inputMove_trans (receiveChar_inputMove s c) (ih _)

theorem supplyLine_inputMove (s : State) (l : List Char) : InputMove s (s.supplyLine l) :=
  inputMove_trans (receiveText_inputMove s l) (receiveChar_inputMove _ _)

theorem closeInput_inputMove (s : State) : InputMove s s.closeInput := by
  unfold State.closeInput
  split
  · exact inputMove_refl s
  · refine ⟨⟨_, _, _, rfl⟩, fun h => ⟨h.1, List.not_mem_nil, ?_⟩⟩
    show ∀ l ∈ (if s.tail = [] then s.lines else s.lines ++ [s.tail]), '\n' ∉ l
    split
    · exact h.2.2
    · exact noNewline_lines_append h

theorem InputMove.inv {s t : State} (h : InputMove s t) (hs : s.inv) : t.inv := by
  obtain ⟨⟨ls, tl, cl, rfl⟩, hnl⟩ := h
  obtain ⟨hwf, hfault, hwait, hs⟩ := hs
  exact ⟨hwf, hfault, hwait, hnl hs⟩

/-- The host's move is execute(), accepted in Ready, or an input move. -/
theorem HostMove.cases {s t : State} (h : HostMove s t) : t = { s with ctl := .running .check } ∨ InputMove s t := by
  cases h with
  | execute _ h =>
    rw [State.callExecute] at h
    split at h <;> cases h
    exact .inl rfl
  | character c => exact .inr (receiveChar_inputMove s c)
  | close => exact .inr (closeInput_inputMove s)

/-- Settles O53: a step is a chain of stages, each of which keeps the invariant, and so does each move of the host. -/
theorem stepKeepsTheInvariant : Obligations.StepKeepsTheInvariant := by
  rintro s t hs (hstep | hhost)
  · exact step_inv hs hstep
  · rcases hhost.cases with rfl | hinput
    · obtain ⟨hwf, -, -, hnl⟩ := hs
      exact inv_of_running rfl hwf hnl
    · exact hinput.inv hs

/-- Settles O54: execute() moves ctl alone, and the input moves change the Display's unread input alone. -/
theorem hostMovesLeaveMemoryAsItWas : Obligations.HostMovesLeaveMemoryAsItWas := by
  constructor
  · intro s t h
    obtain rfl | ⟨⟨ls, tl, cl, rfl⟩, -⟩ := h.cases <;> exact ⟨rfl, ⟨rfl, rfl, rfl, rfl, rfl⟩, rfl, rfl, rfl⟩
  · intro s t cs h
    have hmove : InputMove s t := by
      rcases h with rfl | rfl | rfl
      · exact receiveText_inputMove s cs
      · exact supplyLine_inputMove s cs
      · exact closeInput_inputMove s
    have hinv : s.inv → t.inv := hmove.inv
    obtain ⟨⟨ls, tl, cl, rfl⟩, -⟩ := hmove
    exact ⟨rfl, ⟨rfl, rfl, rfl, rfl, rfl⟩, rfl, rfl, rfl, rfl, hinv⟩

/-! ### Reset and construction -/

theorem reset_inv : State.reset.inv :=
  ⟨reset_wf, fun f hf => (by cases hf), fun hw => (by cases hw), by decide⟩

/-- Settles O22: memory is empty, ctl is Ready and nothing is buffered. -/
theorem resetMeetsTheInvariant : Obligations.ResetMeetsTheInvariant :=
  reset_inv

theorem step_ready {s : State} (h : s.ctl = .ready) : step s = .next s := by
  simp only [step, h, readyStage_eq]

theorem construct_eq_none_iff (image : List Byte) :
    State.construct image = none ↔ image.length < 32 ∨ 2 ^ 32 < image.length := by
  rw [State.construct]
  split
  · rename_i hbad
    exact iff_of_true rfl hbad
  · rename_i hok
    exact iff_of_false (by simp) hok

/-- Settles O20: outside memory, N and initial_ip a constructed machine is as at reset. -/
theorem constructionGivesAReadyMachine : Obligations.ConstructionGivesAReadyMachine := by
  refine fun image => ⟨construct_eq_none_iff image, fun s h => ?_⟩
  have hwf := construct_wf h
  obtain ⟨-, -, rfl⟩ := construct_eq_some_iff.1 h
  obtain ⟨-, hfault, hwait, hnl⟩ := reset_inv
  exact ⟨⟨hwf, fun f hf => (by cases hf), hwait, hnl⟩, rfl, rfl, rfl, step_ready rfl⟩

/-- Zero bytes are not listed. -/
theorem Memory.ofImageFrom_zeros (a n : Nat) : Memory.ofImageFrom a (List.replicate n 0) = [] := by
  induction n generalizing a with
  | zero => rfl
  | succ n ih =>
    rw [List.replicate_succ, Memory.ofImageFrom, if_pos (show (0 : Byte) = Config.unlistedByte from rfl)]
    exact ih (a + 1)

/-- Settles O21: zero bytes give the empty list of cells, whose word at 0 is 0. -/
theorem resetIsTheZeroImage : Obligations.ResetIsTheZeroImage := by
  intro n hmin hmax
  rw [construct_eq_some_iff, List.length_replicate, Memory.ofImageFrom_zeros]
  exact ⟨hmin, hmax, rfl⟩

/-! ### The host's input text (44_io.md R132) -/

/-- Text without an LF joins the unfinished line of an open stream. -/
theorem receiveText_noNewline {s : State} {l : List Char} (hopen : s.closed = false) (hl : '\n' ∉ l) :
    s.receiveText l = { s with tail := s.tail ++ l } := by
  induction l generalizing s with
  | nil => rw [List.append_nil]; rfl
  | cons c l ih =>
    obtain ⟨hc, hl⟩ : '\n' ≠ c ∧ '\n' ∉ l := by simpa using hl
    have hfirst : s.receiveChar c = { s with tail := s.tail ++ [c] } := by
      simp [State.receiveChar, hopen, hc.symm]
    have hrest : (s.receiveChar c).receiveText l = { s with tail := s.tail ++ [c] ++ l } := by
      rw [hfirst]
      exact ih hopen hl
    rw [List.append_assoc] at hrest
    exact hrest

/-- Settles O23: the text joins the unfinished line, which the LF or the close then ends. -/
theorem linesEndAtTheLineFeed : Obligations.LinesEndAtTheLineFeed := by
  intro s l hopen hl
  rw [State.supplyLine, receiveText_noNewline hopen hl]
  constructor
  · simp [State.receiveChar, hopen]
  · simp [State.closeInput, hopen]

end Sys2Proof.Machine
end

section

namespace Sys2Proof.Machine

/-! ### What a step from Check is (40_cycle.md R97, R98, R100, R105) -/

theorem step_check_exit {s : State} (hctl : s.ctl = .running .check) (hend : s.readReg .endr ≠ 0) :
    step s = .next (exitStage s) := by
  simp only [step, hctl, runCheck, checkStage_exit hend]
  rfl

theorem step_check_fetch {s : State} (hctl : s.ctl = .running .check) (hend : s.readReg .endr = 0) :
    step s = runFetch { s with ctl := .running .fetch } := by
  simp only [step, hctl, runCheck, checkStage_fetch hend]
  rfl

theorem runFetch_fault {s : State} {f : Fault} (h : fetchStage s = raise f (latchCurIp s)) :
    runFetch s = .next (raise f (latchCurIp s)) := by
  rw [runFetch, h]
  rfl

theorem runFetch_ok {s : State} (h : (s.readReg .ip).toNat % 4 = 0) (hn : (s.readReg .ip).toNat + 4 ≤ s.memSize) :
    runFetch s = runDecode
      { latchCurIp s with fetched := s.mem.word (s.readReg .ip).toNat, ctl := .running .decode } := by
  rw [runFetch, fetchStage_ok h hn]
  rfl

theorem runDecode_error {s : State} {e : DecodeError} (h : decode s.fetched = .error e) :
    runDecode s = .next (raise (faultOfDecode e s.curIp) s) := by
  rw [runDecode, decodeStage_error h]
  rfl

theorem runDecode_ok {s : State} {i : Instr} (h : decode s.fetched = .ok i) :
    runDecode s = runExecute { s with inst := i, ctl := .running .execute } := by
  rw [runDecode, decodeStage_ok h]
  rfl

theorem step_decode {s : State} (hctl : s.ctl = .running .decode) : step s = runDecode s := by
  simp only [step, hctl]

/-- The state in which Decode finds the word at IP, of a step from Check. -/
def State.fetchedAt (s : State) (p : Word) : State :=
  { s with curIp := p, fetched := s.mem.word p.toNat, ctl := .running .decode }

/-- A step from Check with END = 0, IP aligned and its word in memory is Decode of that word and what follows. -/
theorem step_check_decode {s : State} (hctl : s.ctl = .running .check) (hend : s.readReg .endr = 0)
    (halign : (s.readReg .ip).toNat % 4 = 0) (hn : (s.readReg .ip).toNat + 4 ≤ s.memSize) :
    step s = runDecode (s.fetchedAt (s.readReg .ip)) := by
  rw [step_check_fetch hctl hend]
  exact runFetch_ok (s := { s with ctl := .running .fetch }) halign hn

theorem step_check_rejects {s : State} {e : DecodeError} (hctl : s.ctl = .running .check)
    (hend : s.readReg .endr = 0) (halign : (s.readReg .ip).toNat % 4 = 0)
    (hn : (s.readReg .ip).toNat + 4 ≤ s.memSize) (he : decode (s.mem.word (s.readReg .ip).toNat) = .error e) :
    step s = .next (raise (faultOfDecode e (s.readReg .ip)) (s.fetchedAt (s.readReg .ip))) :=
  (step_check_decode hctl hend halign hn).trans (runDecode_error he)

/-- A step from Check whose word decodes is Execute of the instruction, and what follows, from the latched state. -/
theorem step_check_execute {s : State} {i : Instr} (hctl : s.ctl = .running .check) (hend : s.readReg .endr = 0)
    (halign : (s.readReg .ip).toNat % 4 = 0) (hn : (s.readReg .ip).toNat + 4 ≤ s.memSize)
    (hi : decode (s.mem.word (s.readReg .ip).toNat) = .ok i) :
    step s = runExecute { s.fetchedAt (s.readReg .ip) with inst := i, ctl := .running .execute } :=
  (step_check_decode hctl hend halign hn).trans (runDecode_ok hi)

/-- Settles O10: Check, Fetch and Decode succeed, and what is left is Execute and the end of the step. -/
theorem stepRunsTheDecodedInstruction : Obligations.StepRunsTheDecodedInstruction := by
  intro s i hctl hend halign hn hi
  rw [step_check_execute hctl hend halign hn hi]
  rfl

/-- Settles O12: Check moves to Exit, and Exit does not read ctl. -/
theorem checkWithEndSetExits : Obligations.CheckWithEndSetExits := by
  intro s hctl hend
  rw [step_check_exit hctl hend]
  exact (step_exit (s := { s with ctl := .running .exit }) rfl).symm

/-- Settles O14: Check moves to Fetch, which latches cur_ip and takes the fault of the load. -/
theorem badFetchAddressFaults : Obligations.BadFetchAddressFaults := by
  intro s hctl hend
  rw [step_check_fetch hctl hend]
  exact ⟨fun h => runFetch_fault (fetchStage_misaligned h), fun h hn => runFetch_fault (fetchStage_outOfBounds h hn)⟩

/-- Settles O3: an opcode byte outside the map is in no format, and Decode's error becomes the fault. -/
theorem invalidOpcodeIsRejected : Obligations.InvalidOpcodeIsRejected := by
  have hdecode (w : Word) (hop : w.extractLsb' 0 8 = 0 ∨ 0x19 ≤ (w.extractLsb' 0 8).toNat) :
      decode w = .error (.invalidOpcode (w.extractLsb' 0 8)) :=
    decode_of_formatOf_none ((formatOf_eq_none_iff _).2 hop)
  refine ⟨hdecode, fun s hctl hop => ?_, fun s p w hctl hend hip halign hn hw hop => ?_⟩
  · rw [step_decode hctl, runDecode_error (hdecode _ hop)]
    rfl
  · subst hip hw
    rw [step_check_rejects hctl hend halign hn (hdecode _ hop)]
    rfl

/-- Settles O4: the format's decoder stops at its first bad register field, and Decode's error becomes the fault. -/
theorem firstBadRegisterByteIsRejected : Obligations.FirstBadRegisterByteIsRejected := by
  intro w fmt k hfmt hk hbad hfirst
  have hdecode : decode w = .error (.invalidRegister (wordByte w k) k (wordByte w 0)) :=
    decode_of_first_bad_register hfmt hk hbad hfirst
  refine ⟨hdecode, fun s hctl hw => ?_, fun s p hctl hend hip halign hn hw => ?_⟩
  · subst hw
    rw [step_decode hctl, runDecode_error hdecode]
    rfl
  · subst hip hw
    rw [step_check_rejects hctl hend halign hn hdecode]
    rfl

/-! ### Advance, execute() and restart -/

theorem step_advance {s : State} (h : s.ctl = .running .advance) : step s = .next (advanceStage s) := by
  simp only [step, h]

/-- Advance with adv set writes IP + 4 and nothing else. -/
theorem onlyWrites_advanceStage {s : State} (hwf : s.wf) (hadv : s.adv = true) :
    onlyWrites s (advanceStage s) .ip (s.readReg .ip + 4) := by
  rw [advanceStage_true hadv]
  exact onlyWrites_writeReg hwf .ip _

/-- Settles O11: Advance writes IP, re-read, plus 4 when adv is set, and only moves ctl when it is not. -/
theorem advanceAddsFourToIp : Obligations.AdvanceAddsFourToIp := by
  intro s hwf hctl
  obtain ⟨-, -, hcheck, hsame⟩ := advanceStage_latches s
  refine ⟨_, step_advance hctl, hcheck, hsame, fun hadv => ?_, fun hadv => advanceStage_false hadv⟩
  have hsum : BitVec.ofNat 32 (((s.readReg .ip).toNat + 4) % 2 ^ 32) = s.readReg .ip + 4 :=
    ofNat_add_mod (s.readReg .ip) 4
  rw [hsum]
  exact onlyWrites_advanceStage hwf hadv

theorem callExecute_ready {s : State} (h : s.ctl = .ready) :
    s.callExecute = some { s with ctl := .running .check } := by
  rw [State.callExecute, if_pos h]

theorem callExecute_not_ready {s : State} (h : s.ctl ≠ .ready) : s.callExecute = none := by
  rw [State.callExecute, if_neg h]

/-- Settles O17: execute() is accepted in Ready alone, and it leaves Ready. -/
theorem readyAcceptsOneCall : Obligations.ReadyAcceptsOneCall := by
  refine fun s => ⟨fun h => ⟨step_ready h, callExecute_ready h⟩, callExecute_not_ready, fun t ht => ?_⟩
  by_cases h : s.ctl = .ready
  · rw [callExecute_ready h] at ht
    cases ht
    exact callExecute_not_ready (by simp)
  · rw [callExecute_not_ready h] at ht
    cases ht

/-- Settles O59: the step is Exit, after which execute() moves ctl alone. -/
theorem restartBeginsAtTheEntryPoint : Obligations.RestartBeginsAtTheEntryPoint := by
  intro s hwf hctl hend
  exact ⟨exitStage s, _, step_check_exit hctl hend, rfl, callExecute_ready rfl, rfl, exitStage_ip hwf,
    exitStage_endr hwf, fun _ hip hend => exitStage_byte hwf hip hend, exitStage_sameConsole s⟩

end Sys2Proof.Machine
end

section

namespace Sys2Proof.Machine

/-! ### DIV (41_arithmetic.md R115) -/

theorem exec_div_zero {a b c : Reg} {s : State} (h : s.readReg b = 0) :
    exec (.div a b c) s = takeFault (.divisionByZero s.curIp) s :=
  if_pos h

theorem exec_div_nonzero {a b c : Reg} {s : State} (h : s.readReg b ≠ 0) :
    exec (.div a b c) s = complete true (s.writeReg c (s.readReg a / s.readReg b)) :=
  if_neg h

theorem ofNat_div (x y : Word) : BitVec.ofNat 32 (x.toNat / y.toNat) = x / y := by
  rw [← BitVec.toNat_udiv, BitVec.ofNat_toNat, BitVec.setWidth_eq]

/-- Settles O27: DIV tests the divisor, and faults with nothing written or writes the quotient. -/
theorem divTruncatesOrFaultsOnZero : Obligations.DivTruncatesOrFaultsOnZero := by
  intro a b c
  refine ⟨fun w hop ha hb hc => decode_of_fields (.div a b c) hop ⟨ha, hb, hc⟩, fun s hwf =>
    ⟨exec_div_zero, fun h => ?_⟩⟩
  rw [exec_div_nonzero h, ofNat_div]
  exact complete_writeReg hwf true c _

/-! ### JMP, JEQ, JNE, FIN, SKIP (42_control_transfer.md R116 to R119, R122, R123) -/

/-- The target of a transfer is the exact sum modulo 2^32. -/
theorem ofInt_ipRelative (s : State) (o : BitVec 16) :
    BitVec.ofInt 32 (((s.readReg .ip).toNat + o.toInt) % 2 ^ 32) = ipRelative s o := by
  rw [← ipRelative_toNat, BitVec.ofInt_natCast, BitVec.ofNat_toNat, BitVec.setWidth_eq]

/-- A transfer that is taken writes IP alone and does not advance. -/
theorem complete_jumpTo {s : State} (hwf : s.wf) (o : BitVec 16) :
    ∃ t, complete false (jumpTo s o) = .next t ∧ ended false t ∧
      onlyWrites s t .ip (BitVec.ofInt 32 (((s.readReg .ip).toNat + o.toInt) % 2 ^ 32)) := by
  rw [ofInt_ipRelative]
  exact complete_writeReg hwf false .ip _

theorem exec_jeq (o : BitVec 16) (s : State) :
    exec (.jeq o) s = if s.readReg .cmp ≠ 0 then complete false (jumpTo s o) else complete true s := by
  simp only [← cmpSet_iff]
  rfl

theorem exec_jne (o : BitVec 16) (s : State) :
    exec (.jne o) s = if s.readReg .cmp ≠ 0 then complete true s else complete false (jumpTo s o) := by
  simp only [← cmpSet_iff]
  rfl

/-- Settles O28: JMP is the transfer. -/
theorem jmpAddsItsOffsetToIp : Obligations.JmpAddsItsOffsetToIp := by
  intro o
  exact ⟨fun w hop ho => decode_of_fields (.jmp o) hop ho, fun s hwf => complete_jumpTo hwf o⟩

/-- Settles O29: JEQ tests CMP, and is the transfer or the advance alone. -/
theorem jeqJumpsWhenCmpIsNotZero : Obligations.JeqJumpsWhenCmpIsNotZero := by
  intro o
  refine ⟨fun w hop ho => decode_of_fields (.jeq o) hop ho, fun s hwf => ⟨fun h => ?_, fun h => ?_⟩⟩ <;> rw [exec_jeq]
  · rw [if_pos h]
    exact complete_jumpTo hwf o
  · exact if_neg (not_not.2 h)

/-- Settles O30: JNE tests CMP, and is the advance alone or the transfer. -/
theorem jneJumpsWhenCmpIsZero : Obligations.JneJumpsWhenCmpIsZero := by
  intro o
  refine ⟨fun w hop ho => decode_of_fields (.jne o) hop ho, fun s hwf => ⟨fun h => ?_, fun h => ?_⟩⟩ <;> rw [exec_jne]
  · rw [if_neg (not_not.2 h)]
    exact complete_jumpTo hwf o
  · exact if_pos h

/-- Settles O34: SKIP has no operand field, and Execute is the advance alone. -/
theorem skipOnlyAdvances : Obligations.SkipOnlyAdvances :=
  ⟨fun _ hop => decode_of_fields .skip hop trivial, fun _ => rfl⟩

theorem exec_fin (s : State) : exec .fin s = complete false (s.writeReg .endr 1) := rfl

/-- Execute of FIN and the Advance that adds nothing: END is 1 and the controller is at Check. -/
theorem runExecute_fin {s : State} (h : s.inst = .fin) :
    runExecute s = .next { s.writeReg .endr 1 with adv := false, ctl := .running .check } := by
  rw [runExecute, h, exec_fin]
  exact (afterExecute_advances rfl).trans (congrArg _ (advanceStage_false rfl))

/-- Settles O33: the first step writes END alone, so that Check of the second finds it set and exits. -/
theorem finEndsTheRun : Obligations.FinEndsTheRun := by
  refine ⟨fun w hop => decode_of_fields .fin hop trivial, fun s hwf => complete_writeReg hwf false .endr 1, ?_⟩
  intro s hwf hctl hend halign hn hfin
  have hstep := (step_check_execute hctl hend halign hn hfin).trans (runExecute_fin rfl)
  obtain ⟨hendr, hregs, -⟩ := onlyWrites_writeReg hwf .endr 1
  have hwf' : (s.writeReg .endr 1).wf := State.writeReg_wf hwf .endr 1
  refine ⟨_, _, hstep, hregs .ip (by decide), step_check_exit rfl ?_, rfl, exitStage_ip hwf', exitStage_endr hwf'⟩
  exact hendr.trans_ne (by decide)

/-! ### LD, MOV (43_load_move.md R125, R127) -/

theorem exec_ld_ok {r : Reg} {o : BitVec 16} {s : State} (h : (ipRelative s o).toNat < s.memSize) :
    exec (.ld r o) s = complete true (s.writeReg r (zextByte (s.mem.byte (ipRelative s o).toNat))) := by
  show execLd r o s = _
  rw [execLd, loadByte_ok h]

theorem exec_ld_outOfBounds {r : Reg} {o : BitVec 16} {s : State} (h : s.memSize ≤ (ipRelative s o).toNat) :
    exec (.ld r o) s = takeFault (.outOfBounds (ipRelative s o) 1 s.curIp) s := by
  show execLd r o s = _
  rw [execLd, loadByte_outOfBounds h]

theorem zextByte_eq_ofNat (b : Byte) : zextByte b = BitVec.ofNat 32 b.toNat :=
  (BitVec.ofNat_toNat 32 b).symm

/-- Settles O35: the address is IP-relative, and LD writes the byte there or faults with nothing written. -/
theorem ldLoadsTheByteAtIpPlusOffset : Obligations.LdLoadsTheByteAtIpPlusOffset := by
  intro r o
  refine ⟨fun w hop hr ho => decode_of_fields (.ld r o) hop ⟨hr, ho⟩, fun s ea hwf hea => ?_⟩
  obtain rfl : ea = ipRelative s o := by
    apply BitVec.eq_of_toNat_eq
    exact_mod_cast hea.trans (ipRelative_toNat s o).symm
  refine ⟨fun hin => ?_, exec_ld_outOfBounds⟩
  rw [exec_ld_ok hin, zextByte_eq_ofNat]
  exact complete_writeReg hwf true r _

/-- Settles O37: MOV ends with one write, of the source's value. -/
theorem movCopiesSourceToDestination : Obligations.MovCopiesSourceToDestination := by
  intro a b
  exact ⟨fun w hop ha hb => decode_of_fields (.mov a b) hop ⟨ha, hb⟩, fun s hwf => complete_writeReg hwf true b _⟩

/-! ### EQ, LT, LE (45_compare.md R147 to R150) -/

/-- A comparison that decides `p` ends with one write, of 1 or 0 to CMP. -/
theorem complete_setCmp {s : State} (hwf : s.wf) {b : Bool} {p : Prop} [Decidable p] (hb : b = true ↔ p) :
    ∃ t, complete true (setCmp s b) = .next t ∧ ended true t ∧ onlyWrites s t .cmp (if p then 1 else 0) := by
  have hflag : flagWord b = if p then 1 else 0 := by simp only [flagWord, hb]
  rw [← hflag]
  exact complete_writeReg hwf true .cmp _

/-- Settles O38: values are equal exactly when their numbers are. -/
theorem eqWritesOnlyCmp : Obligations.EqWritesOnlyCmp := by
  intro a b
  exact ⟨fun w hop ha hb => decode_of_fields (.eq a b) hop ⟨ha, hb⟩,
    fun s hwf => complete_setCmp hwf (beq_iff_eq.trans BitVec.toNat_inj.symm)⟩

/-- Settles O39: the comparison is that of the unsigned numbers. -/
theorem ltWritesOnlyCmp : Obligations.LtWritesOnlyCmp := by
  intro a b
  exact ⟨fun w hop ha hb => decode_of_fields (.lt a b) hop ⟨ha, hb⟩,
    fun s hwf => complete_setCmp hwf decide_eq_true_iff⟩

/-- Settles O40: the comparison is that of the unsigned numbers. -/
theorem leWritesOnlyCmp : Obligations.LeWritesOnlyCmp := by
  intro a b
  exact ⟨fun w hop ha hb => decode_of_fields (.le a b) hop ⟨ha, hb⟩,
    fun s hwf => complete_setCmp hwf decide_eq_true_iff⟩

/-! ### Stored words and registers (20_memory.md R45, R50; 10_state.md R21) -/

/-- A word store that succeeds leaves every field but memory, and every byte outside its word. -/
theorem storeWord_frame {s t : State} {a v : Word} (hwf : s.wf) (h : storeWord s a v = .ok t) :
    sameBytesBut a.toNat 4 s t ∧ sameLatches s t ∧ sameConsole s t ∧ t.ctl = s.ctl ∧ t.adv = s.adv := by
  obtain ⟨-, -, hcanon, -⟩ := hwf
  obtain ⟨-, -, rfl⟩ := storeWord_eq_ok h
  exact ⟨fun _ hx => Memory.byte_putWord_outside hcanon v hx, ⟨rfl, rfl, rfl, rfl, rfl⟩,
    ⟨⟨rfl, rfl, rfl, rfl⟩, rfl⟩, rfl, rfl⟩

theorem loadWord_storeWord {s t : State} {a v : Word} (hwf : s.wf) (h : storeWord s a v = .ok t) :
    loadWord t a = .ok v := by
  obtain ⟨-, -, hcanon, -⟩ := hwf
  obtain ⟨halign, hn, rfl⟩ := storeWord_eq_ok h
  exact loadWord_eq_ok_iff.2 ⟨halign, hn, Memory.word_putWord_same hcanon _ _⟩

/-- Byte `k` of the word at an address that a word load accepts (20_memory.md R46). -/
theorem loadByte_of_loadWord {s : State} {a v : Word} (hwf : s.wf) (h : loadWord s a = .ok v) {k : Nat} (hk : k < 4) :
    loadByte s (a + BitVec.ofNat 32 k) = .ok (v.extractLsb' (8 * k) 8) := by
  obtain ⟨-, hmax, -⟩ := hwf
  obtain ⟨-, hn, rfl⟩ := loadWord_eq_ok_iff.1 h
  have haddr : (a + BitVec.ofNat 32 k).toNat = a.toNat + k := by
    have hspace : Config.addressSpace = 2 ^ 32 := rfl
    rw [BitVec.toNat_add, BitVec.toNat_ofNat]
    omega
  rw [loadByte_ok (by omega), haddr, ← Memory.wordSlice_word _ _ hk]
  rfl

/-- Settles O8: the store wrote the word at its address, and the checks of the loads are those of the store. -/
theorem storedWordReadsBack : Obligations.StoredWordReadsBack := by
  intro s t a v hwf h
  have hload := loadWord_storeWord hwf h
  exact ⟨hload, fun k hk => loadByte_of_loadWord (storeWord_wf hwf h) hload hk, storeWord_frame hwf h⟩

/-- Settles O9: a word store at a register's address is the write of that register, and its word reads back by bytes. -/
theorem registersAreMemoryWords : Obligations.RegistersAreMemoryWords := by
  constructor
  · intro s t r v hwf h
    have hmin : Config.minMemSize ≤ s.memSize := hwf.1
    rw [storeWord_register hmin] at h
    cases h
    exact onlyWrites_writeReg hwf r v
  · intro s r v k hwf hk
    have hmin : Config.minMemSize ≤ s.memSize := hwf.1
    have hload := loadWord_storeWord hwf (storeWord_register hmin r v)
    have hsum : BitVec.ofNat 32 (r.addr + k) = BitVec.ofNat 32 r.addr + BitVec.ofNat 32 k := BitVec.ofNat_add _ _
    rw [hsum]
    exact loadByte_of_loadWord (State.writeReg_wf hwf r v) hload hk

end Sys2Proof.Machine
end

section

namespace Sys2Proof.Machine

/-! ### What a push leaves (20_memory.md R60) -/

/-- The state after a push of `v` that does not fault. -/
def afterPush (s : State) (v : Word) : State :=
  State.writeReg { s with mem := s.mem.putWord (s.readReg .sp).toNat v } .sp
    ((s.mem.putWord (s.readReg .sp).toNat v).word 28 + 4)

theorem pushWord_afterPush {s : State} (v : Word) (halign : (s.readReg .sp).toNat % 4 = 0)
    (hn : (s.readReg .sp).toNat + 4 ≤ s.memSize) : pushWord s v = .ok (afterPush s v) :=
  pushWord_ok halign hn rfl

/-- A register after a word write at an aligned address. -/
theorem Memory.word_reg_putWord {m : Memory} (hm : m.wf) (q : Reg) {a : Nat} (v : Word) (ha : a % 4 = 0) :
    (m.putWord a v).word q.addr = if q.addr = a then v else m.word q.addr := by
  have hq := Reg.addr_aligned q
  split
  · rename_i h
    rw [h, Memory.word_putWord_same hm]
  · exact Memory.word_putWord_apart hm v (by omega)

section
variable {s : State} {a : Word} (v : Word) (hwf : s.wf) (ha : s.readReg .sp = a)
include hwf ha

theorem afterPush_sp (halign : a.toNat % 4 = 0) :
    (afterPush s v).readReg .sp = (if a.toNat = 28 then v else a) + 4 := by
  obtain ⟨-, -, hcanon, -⟩ := hwf
  have hword := Memory.word_reg_putWord hcanon .sp v halign
  simp only [Reg.addr, eq_comm (a := 28)] at hword
  rw [afterPush, State.readReg_writeReg_same (Memory.putWord_wf _ _ hcanon), ha, hword]
  rw [show s.mem.word 28 = a from ha]

theorem afterPush_readReg (halign : a.toNat % 4 = 0) {q : Reg} (hq : q ≠ .sp) :
    (afterPush s v).readReg q = if q.addr = a.toNat then v else s.readReg q := by
  obtain ⟨-, -, hcanon, -⟩ := hwf
  rw [afterPush, State.readReg_writeReg_other (Memory.putWord_wf _ _ hcanon) _ hq, ha]
  exact Memory.word_reg_putWord hcanon q v halign

theorem afterPush_slot (halign : a.toNat % 4 = 0) (hsp : a.toNat ≠ 28) : (afterPush s v).mem.word a.toNat = v := by
  obtain ⟨-, -, hcanon, -⟩ := hwf
  rw [afterPush, State.writeReg_mem, Memory.word_putWord_apart (Memory.putWord_wf _ _ hcanon) _, ha]
  · exact Memory.word_putWord_same hcanon _ v
  · simp only [Reg.addr]
    omega

theorem afterPush_byte {x : Nat} (hsp : x < 28 ∨ 32 ≤ x) (hslot : x < a.toNat ∨ a.toNat + 4 ≤ x) :
    (afterPush s v).mem.byte x = s.mem.byte x := by
  obtain ⟨-, -, hcanon, -⟩ := hwf
  subst ha
  exact (Memory.byte_putWord_outside (Memory.putWord_wf _ _ hcanon) _ hsp).trans
    (Memory.byte_putWord_outside hcanon v hslot)

theorem afterPush_wf (hn : a.toNat + 4 ≤ s.memSize) (halign : a.toNat % 4 = 0) : (afterPush s v).wf := by
  subst ha
  exact pushWord_wf hwf (pushWord_afterPush v halign hn)

end

theorem afterPush_latches (s : State) (v : Word) : sameLatches s (afterPush s v) ∧ sameConsole s (afterPush s v) :=
  ⟨⟨rfl, rfl, rfl, rfl, rfl⟩, ⟨rfl, rfl, rfl, rfl⟩, rfl⟩

/-! ### PUSH and CALL (46_stack.md R151; 42_control_transfer.md R120) -/

section
variable {s : State}

theorem exec_push_ok (r : Reg) (halign : (s.readReg .sp).toNat % 4 = 0) (hn : (s.readReg .sp).toNat + 4 ≤ s.memSize) :
    exec (.push r) s = complete true (afterPush s (s.readReg r)) := by
  show execPush r s = _
  rw [execPush, pushWord_afterPush _ halign hn]

theorem exec_push_misaligned (r : Reg) (halign : (s.readReg .sp).toNat % 4 ≠ 0) :
    exec (.push r) s = takeFault (.misalignedWordAccess (s.readReg .sp) 4 s.curIp) s := by
  show execPush r s = _
  rw [execPush, pushWord_misaligned halign]

theorem exec_push_outOfBounds (r : Reg) (halign : (s.readReg .sp).toNat % 4 = 0)
    (hn : s.memSize < (s.readReg .sp).toNat + 4) :
    exec (.push r) s = takeFault (.outOfBounds (s.readReg .sp) 4 s.curIp) s := by
  show execPush r s = _
  rw [execPush, pushWord_outOfBounds halign hn]

theorem exec_call_ok (o : BitVec 16) (halign : (s.readReg .sp).toNat % 4 = 0)
    (hn : (s.readReg .sp).toNat + 4 ≤ s.memSize) :
    exec (.call o) s = complete false (jumpTo (afterPush s (s.readReg .ip)) o) := by
  show execCall o s = _
  rw [execCall, pushWord_afterPush _ halign hn]

theorem exec_call_misaligned (o : BitVec 16) (halign : (s.readReg .sp).toNat % 4 ≠ 0) :
    exec (.call o) s = takeFault (.misalignedWordAccess (s.readReg .sp) 4 s.curIp) s := by
  show execCall o s = _
  rw [execCall, pushWord_misaligned halign]

theorem exec_call_outOfBounds (o : BitVec 16) (halign : (s.readReg .sp).toNat % 4 = 0)
    (hn : s.memSize < (s.readReg .sp).toNat + 4) :
    exec (.call o) s = takeFault (.outOfBounds (s.readReg .sp) 4 s.curIp) s := by
  show execCall o s = _
  rw [execCall, pushWord_outOfBounds halign hn]

/-- CALL pushes IP, so IP holds its old value after the push even where the slot is IP's own word. -/
theorem afterPush_ip (hwf : s.wf) (halign : (s.readReg .sp).toNat % 4 = 0) :
    (afterPush s (s.readReg .ip)).readReg .ip = s.readReg .ip := by
  rw [afterPush_readReg _ hwf rfl halign (by decide), ite_self]

end

/-- Settles O41: PUSH is a push of the register, or the fault of its store. -/
theorem pushStoresAtSpAndIncrements : Obligations.PushStoresAtSpAndIncrements := by
  intro r
  refine ⟨fun w hop hr => decode_of_fields (.push r) hop hr, fun s a v hwf ha hv => ?_⟩
  subst ha hv
  refine ⟨fun halign hn => ?_, exec_push_misaligned r, exec_push_outOfBounds r⟩
  exact ⟨_, exec_push_ok r halign hn, ended_endExecute true _, afterPush_slot _ hwf rfl halign,
    afterPush_sp _ hwf rfl halign, fun q hq => afterPush_readReg _ hwf rfl halign hq,
    fun x hsp hslot => afterPush_byte (s.readReg r) hwf rfl hsp hslot, afterPush_latches s (s.readReg r)⟩

/-- Settles O31: CALL is a push of IP and then the transfer's write of IP, or the fault of the push. -/
theorem callPushesItsAddressAndJumps : Obligations.CallPushesItsAddressAndJumps := by
  intro o
  refine ⟨fun w hop ho => decode_of_fields (.call o) hop ho, fun s a v hwf ha hv => ?_⟩
  subst ha hv
  refine ⟨fun halign hn => ?_, exec_call_misaligned o, exec_call_outOfBounds o⟩
  have hpush := afterPush_wf (s.readReg .ip) hwf rfl hn halign
  obtain ⟨hip, hregs, hbytes, hlatches, hconsole⟩ := onlyWrites_writeReg hpush .ip (ipRelative _ o)
  obtain ⟨hlatches', hconsole'⟩ := afterPush_latches s (s.readReg .ip)
  refine ⟨_, exec_call_ok o halign hn, ended_endExecute false _, fun h0 hsp => ?_, ?_, ?_, fun q hq hsp hslot => ?_,
    fun x hx hsp hslot => ?_, sameLatches_trans hlatches' hlatches, sameConsole_trans hconsole' hconsole⟩
  · have hslot := afterPush_slot (s.readReg .ip) hwf rfl halign hsp
    have hapart : ∀ x, (s.readReg .sp).toNat ≤ x → x < (s.readReg .sp).toNat + 4 → _ :=
      fun x hlo _ => hbytes x (.inr (by simp only [Reg.addr]; omega))
    exact (Memory.word_congr hapart).trans hslot
  · exact (hregs .sp (by decide)).trans (afterPush_sp _ hwf rfl halign)
  · have htarget := ofInt_ipRelative (afterPush s (s.readReg .ip)) o
    rw [afterPush_ip hwf halign] at htarget
    exact hip.trans htarget.symm
  · refine (hregs q hq).trans ((afterPush_readReg _ hwf rfl halign hsp).trans (if_neg hslot))
  · exact (hbytes x (.inr hx)).trans (afterPush_byte _ hwf rfl hsp hslot)

/-! ### What a pop leaves (20_memory.md R61) -/

section
variable {s : State} {a : Word} (r : Reg) (hwf : s.wf) (ha : s.readReg .sp - 4 = a)
include hwf ha

theorem onlyWrites_dropSlot : onlyWrites s (dropSlot s) .sp a :=
  ha ▸ onlyWrites_writeReg hwf .sp _

/-- The word that a pop reads: where the slot is SP's own word, the decremented SP. -/
theorem dropSlot_word (halign : a.toNat % 4 = 0) :
    (dropSlot s).mem.word a.toNat = if a.toNat = 28 then 28 else s.mem.word a.toNat := by
  obtain ⟨-, -, hcanon, -⟩ := hwf
  rw [dropSlot_mem, ha]
  split
  · rename_i h
    rw [h, Memory.word_putWord_same hcanon]
    exact BitVec.eq_of_toNat_eq h
  · exact Memory.word_putWord_apart hcanon a (by omega)

theorem popInto_misaligned (halign : a.toNat % 4 ≠ 0) :
    ∃ t, popInto r s = .next t ∧ t.ctl = .faulted (.misalignedWordAccess a 4 s.curIp) ∧ onlyWrites s t .sp a ∧
      t.adv = s.adv := by
  have hdrop := onlyWrites_dropSlot hwf ha
  rw [popInto_cases r hdrop.1, if_pos halign]
  exact ⟨_, rfl, rfl, hdrop, rfl⟩

theorem popInto_outOfBounds (halign : a.toNat % 4 = 0) (hn : s.memSize < a.toNat + 4) :
    ∃ t, popInto r s = .next t ∧ t.ctl = .faulted (.outOfBounds a 4 s.curIp) ∧ onlyWrites s t .sp a ∧
      t.adv = s.adv := by
  have hdrop := onlyWrites_dropSlot hwf ha
  rw [popInto_cases r hdrop.1, if_neg (not_not.2 halign), if_pos hn]
  exact ⟨_, rfl, rfl, hdrop, rfl⟩

/-- A pop that does not fault: SP's write, and then that of the register with the word at the slot. -/
theorem popInto_ok (halign : a.toNat % 4 = 0) (hn : a.toNat + 4 ≤ s.memSize) :
    ∃ t, popInto r s = .next t ∧ ended true t ∧
      t.readReg r = (if a.toNat = 28 then 28 else s.mem.word a.toNat) ∧ (r ≠ .sp → t.readReg .sp = a) ∧
      (∀ q : Reg, q ≠ r → q ≠ .sp → t.readReg q = s.readReg q) ∧
      (∀ x, (x < 28 ∨ 32 ≤ x) → (x < r.addr ∨ r.addr + 4 ≤ x) → t.mem.byte x = s.mem.byte x) ∧
      sameLatches s t ∧ sameConsole s t := by
  obtain ⟨hsp, hregs, hbytes, hlatches, hconsole⟩ := onlyWrites_dropSlot hwf ha
  obtain ⟨hr, hregs', hbytes', hlatches', hconsole'⟩ :=
    onlyWrites_writeReg (dropSlot_wf hwf) r ((dropSlot s).mem.word a.toNat)
  rw [popInto_cases r hsp, if_neg (not_not.2 halign), if_neg (Nat.not_lt.2 hn)]
  exact ⟨_, rfl, ended_endExecute true _, hr.trans (dropSlot_word hwf ha halign),
    fun hne => (hregs' .sp hne.symm).trans hsp, fun q hq hne => (hregs' q hq).trans (hregs q hne),
    fun x hslot hx => (hbytes' x hx).trans (hbytes x hslot), sameLatches_trans hlatches hlatches',
    sameConsole_trans hconsole hconsole'⟩

end

/-! ### POP and RET (46_stack.md R152; 42_control_transfer.md R121) -/

/-- Settles O42: POP is the pop. -/
theorem popDecrementsAndLoads : Obligations.PopDecrementsAndLoads := by
  intro r
  exact ⟨fun w hop hr => decode_of_fields (.pop r) hop hr, fun s a hwf ha =>
    ⟨popInto_ok r hwf ha, popInto_misaligned r hwf ha, popInto_outOfBounds r hwf ha⟩⟩

/-- Settles O32: RET is the pop into IP, whose word is bytes 0 to 3. -/
theorem retPopsIpAndAdvances : Obligations.RetPopsIpAndAdvances := by
  refine ⟨fun w hop => decode_of_fields .ret hop trivial, fun s a hwf ha =>
    ⟨fun halign hn => ?_, popInto_misaligned .ip hwf ha, popInto_outOfBounds .ip hwf ha⟩⟩
  obtain ⟨t, ht, hended, hip, hsp, hregs, hbytes, hframe⟩ := popInto_ok .ip hwf ha halign hn
  exact ⟨t, ht, hended, hip, hsp (by decide), hregs, fun x hx hslot => hbytes x hslot (.inr hx), hframe⟩

/-! ### The stack laws (46_stack.md R153; 42_control_transfer.md R121) -/

/-- A pop from a machine whose SP is one past the slot `a`, outside the register file, that holds `v`. -/
theorem popInto_pushed {u : State} {a v : Word} (r : Reg) (hwf : u.wf) (hsp : u.readReg .sp = a + 4)
    (halign : a.toNat % 4 = 0) (hmin : 32 ≤ a.toNat) (hn : a.toNat + 4 ≤ u.memSize) (hv : u.mem.word a.toNat = v) :
    ∃ t, popInto r u = .next t ∧ ended true t ∧ t.readReg r = v ∧ (r ≠ .sp → t.readReg .sp = a) := by
  have ha : u.readReg .sp - 4 = a := by rw [hsp, BitVec.add_sub_cancel]
  obtain ⟨t, ht, hended, hr, hsp, -⟩ := popInto_ok r hwf ha halign hn
  rw [if_neg (by omega), hv] at hr
  exact ⟨t, ht, hended, hr, hsp⟩

/-- SP after a push whose slot is outside the register file. -/
theorem afterPush_sp_outside {s : State} (v : Word) (hwf : s.wf) (halign : (s.readReg .sp).toNat % 4 = 0)
    (hmin : 32 ≤ (s.readReg .sp).toNat) : (afterPush s v).readReg .sp = s.readReg .sp + 4 := by
  rw [afterPush_sp v hwf rfl halign, if_neg (by omega)]

/-- Advance writes nothing outside IP's word, so a word from address 4 on is as it was. -/
theorem advanceStage_word {s : State} (hwf : s.wf) (hadv : s.adv = true) {a : Nat} (ha : 4 ≤ a) :
    (advanceStage s).mem.word a = s.mem.word a := by
  obtain ⟨-, -, hbytes, -⟩ := onlyWrites_advanceStage hwf hadv
  exact Memory.word_congr fun x hx _ => hbytes x (.inr (ha.trans hx))

/-- Settles O43: SP is one past the pushed slot, so the pop reads that slot; PUSH's Advance writes IP alone. -/
theorem pushThenPopGivesTheValueBack : Obligations.PushThenPopGivesTheValueBack := by
  intro s t r hwf halign hmin hn ht
  rw [exec_push_ok r halign hn] at ht
  cases ht
  have hsp := afterPush_sp_outside (s.readReg r) hwf halign hmin
  have hslot := afterPush_slot (s.readReg r) hwf rfl halign (by omega)
  have hpush : (endExecute true (afterPush s (s.readReg r))).wf := afterPush_wf _ hwf rfl hn halign
  constructor
  · intro u q huwf hsize husp hword
    exact popInto_pushed q huwf (husp.trans hsp) halign hmin (hn.trans_eq hsize.symm) (hword.trans hslot)
  · obtain ⟨-, hregs, -, ⟨hsize, -⟩, -⟩ := onlyWrites_advanceStage hpush rfl
    exact ⟨advanceStage_wf hpush, hsize, hregs .sp (by decide), advanceStage_word hpush rfl (by omega)⟩

/-- Settles O44: SP is one past CALL's slot, so the pop gives IP the address of CALL, and Advance adds 4. -/
theorem callThenRetResumesAfterTheCall : Obligations.CallThenRetResumesAfterTheCall := by
  intro s t u o hwf hmin halign hn ht huwf hsize husp hword
  rw [exec_call_ok o halign hn] at ht
  cases ht
  have hpush := afterPush_wf (s.readReg .ip) hwf rfl hn halign
  obtain ⟨-, hregs, hbytes, -⟩ := onlyWrites_writeReg hpush .ip (ipRelative _ o)
  have hsp := (hregs .sp (by decide)).trans (afterPush_sp_outside (s.readReg .ip) hwf halign hmin)
  have hslot := (Memory.word_congr fun x hx _ => hbytes x (.inr (by simp only [Reg.addr]; omega))).trans
    (afterPush_slot (s.readReg .ip) hwf rfl halign (by omega))
  obtain ⟨v, hv, hended, hip, hvsp⟩ := popInto_pushed .ip huwf (husp.trans hsp) halign hmin (hn.trans_eq hsize.symm)
    (hword.trans hslot)
  obtain ⟨hadvance, -⟩ := onlyWrites_advanceStage (exec_wf (i := .ret) huwf hv) hended.1
  exact ⟨v, hv, hended, hvsp (by decide), hadvance.trans (congrArg (· + 4) hip)⟩

end Sys2Proof.Machine
end

section

namespace Sys2Proof.Machine

/-! ### OUT's loop (44_io.md R138) -/

theorem outLoop_fault {n : Nat} {a : Word} {s : State} (h : s.memSize ≤ a.toNat) :
    outLoop (n + 1) a s = takeFault (.outOfBounds a 1 s.curIp) s := by
  rw [outLoop, loadByte_outOfBounds h]

theorem outLoop_zero {n : Nat} {a : Word} {s : State} (h : a.toNat < s.memSize) (hb : s.mem.byte a.toNat = 0) :
    outLoop (n + 1) a s = complete true s := by
  rw [outLoop, loadByte_ok h]
  exact if_pos hb

theorem outLoop_char {n : Nat} {a : Word} {s : State} (h : a.toNat < s.memSize) (hb : s.mem.byte a.toNat ≠ 0) :
    outLoop (n + 1) a s = outLoop n (a + 1) (emit s (charOfByte (s.mem.byte a.toNat))) := by
  rw [outLoop, loadByte_ok h]
  exact if_neg hb

/-- `k` places on from `a`, modulo 2^32, is `k - 1` places on from the next address. -/
theorem address_succ (a : Word) (k : Nat) : ((a + 1).toNat + k) % 2 ^ 32 = (a.toNat + (k + 1)) % 2 ^ 32 := by
  rw [BitVec.toNat_add, Nat.mod_add_mod]
  congr 1
  rw [show (1 : Word).toNat = 1 from rfl]
  omega

theorem address_zero (a : Word) : (a.toNat + 0) % 2 ^ 32 = a.toNat :=
  Nat.mod_eq_of_lt a.isLt

/-- The loop passes `str.length` non-zero bytes, emitting them, and goes on at the address after them. -/
theorem outLoop_emits {str : List Byte} {n : Nat} {a e : Word} {s : State}
    (hstr : ∀ k, k < str.length → (a.toNat + k) % 2 ^ 32 < s.memSize ∧
      s.mem.byte ((a.toNat + k) % 2 ^ 32) = str.getD k 0 ∧ str.getD k 0 ≠ 0)
    (he : e.toNat = (a.toNat + str.length) % 2 ^ 32) :
    outLoop (str.length + n) a s = outLoop n e (emitAll s (str.map charOfByte)) := by
  induction str generalizing a s with
  | nil =>
    obtain rfl : e = a := BitVec.eq_of_toNat_eq (he.trans (address_zero a))
    simp [emitAll]
  | cons b str ih =>
    obtain ⟨hin, hbyte, hne⟩ := hstr 0 (by simp)
    rw [address_zero] at hin hbyte
    rw [hbyte.symm] at hne
    have hrest := ih (a := a + 1) (s := emit s (charOfByte (s.mem.byte a.toNat)))
      (fun k hk => by rw [address_succ]; exact hstr (k + 1) (by simpa using hk)) (by rw [address_succ]; exact he)
    rw [List.length_cons, Nat.succ_add, outLoop_char hin hne, hrest, hbyte]
    simp [emitAll, emit]

/-- Settles O45: the loop passes the string, and ends at the byte after it. -/
theorem outEmitsTheString : Obligations.OutEmitsTheString := by
  intro r
  refine ⟨fun w hop hr => decode_of_fields (.out r) hop hr, fun s str e hlen hstr he => ?_⟩
  obtain ⟨n, hn⟩ : ∃ n, Config.addressSpace = str.length + (n + 1) := Nat.exists_eq_add_of_lt hlen
  have hloop : exec (.out r) s = outLoop (n + 1) e (emitAll s (str.map charOfByte)) := by
    show outLoop Config.addressSpace _ s = _
    rw [hn]
    exact outLoop_emits hstr he
  rw [hloop]
  exact ⟨fun hin hzero => outLoop_zero (s := emitAll s _) hin hzero, fun hout => outLoop_fault (s := emitAll s _) hout⟩

/-- With no byte that ends the string, all rounds of the loop emit. -/
theorem outLoop_endless {n : Nat} {a : Word} {s : State} (h : ∀ a, a < 2 ^ 32 → a < s.memSize ∧ s.mem.byte a ≠ 0) :
    outLoop n a s = .next
      { emitAll s ((List.range n).map fun k => charOfByte (s.mem.byte ((a.toNat + k) % 2 ^ 32))) with
        ctl := .running .execute } := by
  induction n generalizing a s with
  | zero => simp [outLoop, emitAll]
  | succ n ih =>
    obtain ⟨hin, hne⟩ := h a.toNat a.isLt
    have hrest := ih (a := a + 1) (s := emit s (charOfByte (s.mem.byte a.toNat))) h
    rw [outLoop_char hin hne, hrest, List.range_succ_eq_map, List.map_cons, List.map_map, address_zero]
    simp only [address_succ, emitAll, emit, List.append_assoc, List.singleton_append]
    rfl

/-- Settles O46: no address ends the loop, so all 2^32 rounds emit. -/
theorem endlessOutGoesOn : Obligations.EndlessOutGoesOn :=
  fun _ _ h => outLoop_endless h

/-! ### OUTR (44_io.md R140) -/

theorem exec_outr_some {r : Reg} {s : State} {c : Char} (h : charOfCode (s.readReg r) = some c) :
    exec (.outr r) s = complete true (emit s c) := by
  show execOutr r s = _
  rw [execOutr, h]

theorem exec_outr_none {r : Reg} {s : State} (h : charOfCode (s.readReg r) = none) :
    exec (.outr r) s = takeFault (.invalidCharacter (s.readReg r) s.curIp) s := by
  show execOutr r s = _
  rw [execOutr, h]

theorem charOfCode_none {v : Word} (h : 0x10FFFF < v.toNat ∨ (0xD800 ≤ v.toNat ∧ v.toNat ≤ 0xDFFF)) :
    charOfCode v = none :=
  if_pos h

theorem charOfCode_scalar {v : Word} (h : v.toNat < 0xD800 ∨ (0xDFFF < v.toNat ∧ v.toNat ≤ 0x10FFFF)) :
    ∃ c, charOfCode v = some c ∧ c.toNat = v.toNat := by
  refine ⟨_, if_neg (by omega), ?_⟩
  rw [Char.toNat_ofNat, if_pos]
  rw [Nat.isValidChar]
  omega

/-- Settles O50: a scalar value is some character's code, and any other value is none's. -/
theorem outrEmitsOneScalarValue : Obligations.OutrEmitsOneScalarValue := by
  intro r
  refine ⟨fun w hop hr => decode_of_fields (.outr r) hop hr, fun s v hv => ?_⟩
  subst hv
  refine ⟨fun h => ?_, fun h => exec_outr_none (charOfCode_none h)⟩
  obtain ⟨c, hc, hcode⟩ := charOfCode_scalar h
  exact ⟨c, hcode, exec_outr_some hc⟩

/-! ### Decimal texts (44_io.md R141, R142) -/

theorem digitValue_eq_some_iff {c : Char} {d : Nat} :
    digitValue c = some d ↔ (0x30 ≤ c.toNat ∧ c.toNat ≤ 0x39) ∧ c.toNat - 0x30 = d := by
  simp [digitValue]

/-- The value of a text is that of its digits, and it has one when all characters are digits. -/
theorem digitsValue_eq (cs : List Char) (acc : Nat) :
    digitsValue acc cs =
      if ∀ c ∈ cs, 0x30 ≤ c.toNat ∧ c.toNat ≤ 0x39 then some (cs.foldl (fun m c => 10 * m + (c.toNat - 0x30)) acc)
      else none := by
  induction cs generalizing acc with
  | nil => simp [digitsValue]
  | cons c cs ih =>
    rw [digitsValue]
    by_cases hc : 0x30 ≤ c.toNat ∧ c.toNat ≤ 0x39
    · rw [digitValue_eq_some_iff.2 ⟨hc, rfl⟩]
      simp [ih, hc]
    · have hnone : digitValue c = none := if_neg hc
      rw [hnone]
      simp [hc]

/-- A text that is a valid decimal of value `n`, for a register (44_io.md R142). -/
def validDecimal (text : List Char) (n : Nat) : Prop :=
  text ≠ [] ∧ (∀ c ∈ text, 0x30 ≤ c.toNat ∧ c.toNat ≤ 0x39) ∧ n < 2 ^ 32

theorem parseDecimal_valid {text : List Char} {n : Nat} (hn : n = text.foldl (fun m c => 10 * m + (c.toNat - 0x30)) 0)
    (h : validDecimal text n) : parseDecimal text = some (BitVec.ofNat 32 n) := by
  obtain ⟨hne, hdigits, hlt⟩ := h
  simp only [parseDecimal, digitsValue_eq, if_neg hne, if_pos hdigits, ← hn, if_pos hlt]

theorem parseDecimal_invalid {text : List Char} {n : Nat}
    (hn : n = text.foldl (fun m c => 10 * m + (c.toNat - 0x30)) 0) (h : ¬ validDecimal text n) :
    parseDecimal text = none := by
  by_cases hne : text = []
  · exact if_pos hne
  by_cases hdigits : ∀ c ∈ text, 0x30 ≤ c.toNat ∧ c.toNat ≤ 0x39
  · have hbig : ¬ n < 2 ^ 32 := fun hlt => h ⟨hne, hdigits, hlt⟩
    simp only [parseDecimal, digitsValue_eq, if_neg hne, if_pos hdigits, ← hn, if_neg hbig]
  · simp only [parseDecimal, digitsValue_eq, if_neg hne, if_neg hdigits]

/-- The digits of decimal(v), as numbers. -/
def decimalDigits (v : Word) : List Nat :=
  if v = 0 then [0] else (decimalPlaces v).dropWhile fun d => d == 0

theorem decimal_eq_map (v : Word) : decimal v = (decimalDigits v).map digitChar := by
  unfold decimal decimalDigits
  split <;> rfl

theorem decimalDigits_lt {v : Word} {d : Nat} (h : d ∈ decimalDigits v) : d < 10 := by
  unfold decimalDigits at h
  split at h
  · simp_all
  · exact decimalPlaces_lt ((List.dropWhile_sublist _).subset h)

/-- Leading zeros add nothing to a value. -/
theorem foldl_dropWhile_zero (ds : List Nat) :
    (ds.dropWhile fun d => d == 0).foldl (fun m d => 10 * m + d) 0 = ds.foldl (fun m d => 10 * m + d) 0 := by
  induction ds with
  | nil => rfl
  | cons d ds ih =>
    by_cases hd : d = 0
    · simpa [hd] using ih
    · simp [hd]

theorem decimalDigits_value (v : Word) : (decimalDigits v).foldl (fun m d => 10 * m + d) 0 = v.toNat := by
  unfold decimalDigits
  split
  · rename_i h
    rw [h]
    rfl
  · rw [foldl_dropWhile_zero, decimalPlaces_value]

theorem decimalDigits_ne_nil (v : Word) : decimalDigits v ≠ [] := by
  intro hnil
  have hvalue := decimalDigits_value v
  rw [hnil] at hvalue
  obtain rfl : v = 0 := BitVec.eq_of_toNat_eq hvalue.symm
  cases hnil

theorem decimalDigits_head_zero {v : Word} (h : (decimalDigits v).head? = some 0) : (decimalDigits v).length = 1 := by
  unfold decimalDigits at h ⊢
  split at h
  · rename_i hv
    rw [if_pos hv]
    rfl
  · have hnot := List.head?_dropWhile_not (fun d => d == 0) (decimalPlaces v)
    rw [h] at hnot
    cases hnot

theorem digitChar_toNat {d : Nat} (h : d < 10) : (digitChar d).toNat = 0x30 + d :=
  (by decide : ∀ d : Fin 10, (digitChar d.val).toNat = 0x30 + d.val) ⟨d, h⟩

theorem decimal_digits (v : Word) : ∀ c ∈ decimal v, 0x30 ≤ c.toNat ∧ c.toNat ≤ 0x39 := by
  intro c hc
  rw [decimal_eq_map] at hc
  obtain ⟨d, hd, rfl⟩ := List.mem_map.1 hc
  have hlt := decimalDigits_lt hd
  rw [digitChar_toNat hlt]
  omega

theorem decimal_value (v : Word) : (decimal v).foldl (fun m c => 10 * m + (c.toNat - 0x30)) 0 = v.toNat := by
  rw [decimal_eq_map, List.foldl_map, ← decimalDigits_value v]
  refine List.foldl_ext _ _ _ fun m d hd => ?_
  rw [digitChar_toNat (decimalDigits_lt hd), Nat.add_sub_cancel_left]

theorem decimal_ne_nil (v : Word) : decimal v ≠ [] := by
  rw [decimal_eq_map]
  simpa using decimalDigits_ne_nil v

theorem decimal_head_zero {v : Word} (h : (decimal v).head? = some '0') : (decimal v).length = 1 := by
  rw [decimal_eq_map] at h ⊢
  rw [List.length_map]
  rw [List.head?_map, Option.map_eq_some_iff] at h
  obtain ⟨d, hd, hzero⟩ := h
  have hlt := decimalDigits_lt (List.mem_of_head? hd)
  have hcode := (digitChar_toNat hlt).symm.trans (congrArg Char.toNat hzero)
  obtain rfl : d = 0 := by simpa using hcode
  exact decimalDigits_head_zero hd

/-- Settles O51: the digits of the value's ten decimal places, without leading zeros. -/
theorem outnumEmitsTheDecimalDigits : Obligations.OutnumEmitsTheDecimalDigits := by
  intro r
  exact ⟨fun w hop hr => decode_of_fields (.outnum r) hop hr, fun s => ⟨decimal (s.readReg r), decimal_ne_nil _,
    decimal_digits _, decimal_value _, decimal_head_zero, rfl⟩⟩

/-- Settles O52: what OUTNUM prints is a valid decimal of the register's value. -/
theorem printedNumbersParseBack : Obligations.PrintedNumbersParseBack := by
  intro v
  rw [parseDecimal_valid (decimal_value v).symm ⟨decimal_ne_nil v, decimal_digits v, v.isLt⟩, BitVec.ofNat_toNat,
    BitVec.setWidth_eq]

/-! ### IN and INNUM (44_io.md R133, R134, R139, R142) -/

/-- GetChar's loop passes the empty lines. -/
theorem getCharRefilling_replicate (n : Nat) (ls : List (List Char)) (s : State) :
    getCharRefilling (List.replicate n [] ++ ls) s = getCharRefilling ls s := by
  induction n with
  | zero => rfl
  | succ n ih => exact ih

theorem getChar_of_emptyLines {s : State} {n : Nat} {c : Char} {rest : List Char} {ls : List (List Char)}
    (hbuf : s.inbuf = []) (hlines : s.lines = List.replicate n [] ++ (c :: rest) :: ls) :
    getChar s = .got c { s with inbuf := rest, lines := ls } := by
  rw [getChar, hbuf, hlines]
  exact getCharRefilling_replicate n _ s

theorem getChar_exhausts {s : State} {n : Nat} (hbuf : s.inbuf = []) (hlines : s.lines = List.replicate n []) :
    getChar s = noLine { s with lines := [] } := by
  have hempty := getCharRefilling_replicate n [] s
  rw [List.append_nil] at hempty
  calc getChar s = getCharRefilling (List.replicate n []) s := by rw [getChar, hbuf, hlines]
    _ = noLine { s with lines := [] } := hempty

theorem exec_in_got {r : Reg} {s t : State} {c : Char} (h : getChar s = .got c t) :
    exec (.inp r) s = complete true (t.writeReg r (BitVec.ofNat 32 c.toNat)) := by
  show execIn r s = _
  rw [execIn, h]
  rfl

theorem exec_in_noLine {r : Reg} {s t : State} (h : getChar s = noLine t) :
    exec (.inp r) s = if t.closed then takeFault (.inputExhausted t.curIp) t else waitForInput t := by
  show execIn r s = _
  rw [execIn, h, noLine]
  cases t.closed <;> rfl

/-- Execute ends with a read of the Display's buffers and one register write. -/
theorem complete_read_writeReg {s : State} (hwf : s.wf) (r : Reg) (v : Word) (b : List Char) (ls : List (List Char)) :
    ∃ t, complete true (State.writeReg { s with inbuf := b, lines := ls } r v) = .next t ∧ ended true t ∧
      t.readReg r = v ∧ sameRegsBut r s t ∧ sameBytesBut r.addr 4 s t ∧ sameLatches s t ∧ t.inbuf = b ∧
      t.lines = ls ∧ t.tail = s.tail ∧ t.closed = s.closed ∧ t.output = s.output := by
  obtain ⟨hr, hregs, hbytes, -⟩ := onlyWrites_writeReg hwf r v
  exact ⟨_, rfl, ended_endExecute true _, hr, hregs, hbytes, ⟨rfl, rfl, rfl, rfl, rfl⟩, rfl, rfl, rfl, rfl, rfl⟩

/-- Settles O47: GetChar takes the character from the buffer, or from the first line that is not empty. -/
theorem inReadsOneCharacter : Obligations.InReadsOneCharacter := by
  intro r
  refine ⟨fun w hop hr => decode_of_fields (.inp r) hop hr, fun s c rest ls hwf h => ?_⟩
  have hgot : getChar s = .got c { s with inbuf := rest, lines := ls } := by
    rcases h with ⟨hbuf, rfl⟩ | ⟨hbuf, n, hlines⟩
    · exact getChar_buffered hbuf
    · exact getChar_of_emptyLines hbuf hlines
  rw [exec_in_got hgot]
  exact complete_read_writeReg hwf r _ rest ls

theorem exec_innum_text {r : Reg} {s : State} {text : List Char} {ls : List (List Char)}
    (h : (s.inbuf = text ∧ text ≠ [] ∧ s.lines = ls) ∨ (s.inbuf = [] ∧ s.lines = text :: ls)) :
    exec (.innum r) s = finishInput r (takeNumber { s with inbuf := text, lines := ls }) := by
  have hget : getNum s = takeNumber { s with inbuf := text, lines := ls } := by
    rcases h with ⟨rfl, hne, rfl⟩ | ⟨hbuf, hlines⟩
    · exact getNum_buffered hne
    · exact getNum_refills hbuf hlines
  exact congrArg (finishInput r) hget

theorem exec_innum_noLine {r : Reg} {s : State} (hbuf : s.inbuf = []) (hlines : s.lines = []) :
    exec (.innum r) s = if s.closed then takeFault (.inputExhausted s.curIp) s else waitForInput s := by
  show finishInput r (getNum s) = _
  rw [getNum_noLine hbuf hlines]
  cases s.closed <;> rfl

/-- Settles O48: GetNum takes the whole text, and its parse decides the ending. -/
theorem innumReadsTheBufferedNumber : Obligations.InnumReadsTheBufferedNumber := by
  intro r
  refine ⟨fun w hop hr => decode_of_fields (.innum r) hop hr, fun s text ls n hwf htext hn => ?_⟩
  rw [exec_innum_text htext, takeNumber]
  constructor <;> intro hvalid
  · rw [parseDecimal_valid hn hvalid]
    exact complete_read_writeReg hwf r _ [] ls
  · rw [parseDecimal_invalid hn hvalid]
    rfl

/-- Settles O49: with no line GetChar and GetNum find nothing, and the closed flag decides between fault and wait. -/
theorem inputWithoutALineWaitsOrFaults : Obligations.InputWithoutALineWaitsOrFaults := by
  intro s r hbuf
  refine ⟨fun n hlines => ?_, fun hlines => ?_⟩
  · rw [exec_in_noLine (getChar_exhausts hbuf hlines)]
    exact ⟨fun hclosed => if_pos hclosed, fun hopen => if_neg (by simp [hopen])⟩
  · rw [exec_innum_noLine hbuf hlines]
    exact ⟨fun hclosed => if_pos hclosed, fun hopen => if_neg (by simp [hopen])⟩

/-! ### Waiting (40_cycle.md R107) -/

theorem step_wait {s : State} (h : s.ctl = .waitInput) : step s = runExecute s := by
  simp only [step, h]

theorem step_execute {s : State} (h : s.ctl = .running .execute) : step s = runExecute s := by
  simp only [step, h]

/-- The ending of an input operation from a machine whose ctl is `c`. -/
def Input.withCtl {α : Type} (c : Ctl) : Input α → Input α
  | .got v s => .got v { s with ctl := c }
  | .blocked s => .blocked { s with ctl := c }
  | .exhausted s => .exhausted { s with ctl := c }
  | .malformed s => .malformed { s with ctl := c }

section
variable (c : Ctl) (s : State)

theorem noLine_withCtl {α : Type} : (noLine { s with ctl := c } : Input α) = (noLine s).withCtl c := by
  simp only [noLine]
  split <;> rfl

theorem getCharRefilling_withCtl (ls : List (List Char)) :
    getCharRefilling ls { s with ctl := c } = (getCharRefilling ls s).withCtl c := by
  induction ls with
  | nil => exact noLine_withCtl c { s with lines := [] }
  | cons l ls ih =>
    cases l with
    | nil => exact ih
    | cons d rest => rfl

theorem getChar_withCtl : getChar { s with ctl := c } = (getChar s).withCtl c := by
  cases hbuf : s.inbuf with
  | nil => simpa only [getChar, hbuf] using getCharRefilling_withCtl c s s.lines
  | cons d rest => simp only [getChar, hbuf, Input.withCtl]

theorem takeNumber_withCtl : takeNumber { s with ctl := c } = (takeNumber s).withCtl c := by
  simp only [takeNumber]
  split <;> rfl

theorem getNum_withCtl : getNum { s with ctl := c } = (getNum s).withCtl c := by
  by_cases hbuf : s.inbuf = []
  · obtain hlines | ⟨l, ls, hlines⟩ : s.lines = [] ∨ ∃ l ls, s.lines = l :: ls := by cases s.lines <;> simp
    · calc getNum { s with ctl := c } = noLine { s with ctl := c } := getNum_noLine hbuf hlines
        _ = (noLine s).withCtl c := noLine_withCtl c s
        _ = (getNum s).withCtl c := congrArg _ (getNum_noLine hbuf hlines).symm
    · rw [getNum_refills hbuf hlines, getNum_refills (s := { s with ctl := c }) hbuf hlines]
      exact takeNumber_withCtl c { s with inbuf := l, lines := ls }
  · rw [getNum_buffered hbuf, getNum_buffered (s := { s with ctl := c }) hbuf]
    exact takeNumber_withCtl c s

/-- The end of an input instruction writes ctl, whatever it was. -/
theorem finishInput_withCtl (r : Reg) (x : Input Word) : finishInput r (x.withCtl c) = finishInput r x := by
  cases x <;> rfl

/-- Execute of an input instruction does not depend on ctl. -/
theorem exec_input_withCtl {i : Instr} (hi : ∃ r, i = .inp r ∨ i = .innum r) :
    exec i { s with ctl := c } = exec i s := by
  obtain ⟨r, rfl | rfl⟩ := hi
  · show execIn r { s with ctl := c } = execIn r s
    rw [execIn, execIn, getChar_withCtl]
    cases getChar s <;> rfl
  · show finishInput r (getNum { s with ctl := c }) = finishInput r (getNum s)
    rw [getNum_withCtl, finishInput_withCtl]

end

/-- An input instruction with nothing buffered and no line, on an open and on a closed stream (44_io.md R136, R137). -/
theorem exec_input_noLine {s : State} {r : Reg} (hinst : s.inst = .inp r ∨ s.inst = .innum r) (hbuf : s.inbuf = [])
    (hlines : s.lines = []) :
    exec s.inst s = if s.closed then takeFault (.inputExhausted s.curIp) s else waitForInput s := by
  rcases hinst with hin | hinnum
  · have hsame : { s with lines := [] } = s := by rw [← hlines]
    have hget := getChar_exhausts (n := 0) hbuf hlines
    rw [hsame] at hget
    rw [hin]
    exact exec_in_noLine hget
  · rw [hinnum]
    exact exec_innum_noLine hbuf hlines

/-- Settles O18: a waiting step is Execute of IN or INNUM, which does not read ctl, and with no line waits or faults. -/
theorem waitingHoldsUntilTheHostActs : Obligations.WaitingHoldsUntilTheHostActs := by
  intro s r hctl hinst
  have hresume := exec_input_withCtl (.running .execute) s ⟨r, hinst⟩
  have hnoLine := exec_input_noLine hinst
  rw [step_wait hctl, step_execute (s := { s with ctl := .running .execute }) rfl]
  refine ⟨congrArg afterExecute hresume.symm, fun hbuf hlines hopen => ?_, fun hbuf hlines hclosed => ?_⟩
  · have hsame : waiting s = s := by rw [waiting, ← hctl]
    rw [runExecute, hnoLine hbuf hlines, if_neg (by simp [hopen])]
    exact (afterExecute_stops (t := waiting s) (by simp)).trans (congrArg _ hsame)
  · rw [runExecute, hnoLine hbuf hlines, if_pos hclosed]
    exact afterExecute_stops (t := raise _ s) (by simp)

end Sys2Proof.Machine
end
